-- ==== Sys2Proof/Word.lean ====
section
/-! DEFINITION. The word types of CORE. All datapath values are unsigned (R9). -/

namespace Sys2Proof

/-- One byte: a data byte, a character (R12), an element of an output buffer. -/
abbrev Byte := BitVec 8

/-- A six-bit group, an alphabet index 0..63 (R13). -/
abbrev Sextet := BitVec 6

/-- A command word (R70) or an accumulator (R7). -/
abbrev Word16 := BitVec 16

/-- A read-port value or a read-port word address (R55). -/
abbrev Word32 := BitVec 32

end Sys2Proof
end

