-- ==== Sys2Proof/Config.lean ====
section
/-! DEFINITION. What an implementation of CORE fixes (R7): the two output capacities are OPEN
parameters, everything else has one value. -/

namespace Sys2Proof

/-- The OPEN parameters of R7 (decision D9). They are natural numbers; `Params.wf` holds R7's bounds.
I5 of 93_implementation_defined.md treats them as a parameter: the model takes them from `State.params`
(log entry 2). -/
structure Params where
  /-- `ENC_OUT_CAP`, the encoder output buffer's capacity in bytes. -/
  encOutCap : Nat
  /-- `DEC_OUT_CAP`, the decoder output buffer's capacity in bytes. -/
  decOutCap : Nat
deriving DecidableEq, Repr

/-- The largest capacity R7 admits, 2^30: the size of a read-port window (R55, D3). -/
def Config.maxCapacity : Nat := 1073741824

/-- The smallest `ENC_OUT_CAP` R7 admits: one group of four symbols. -/
def Config.minEncOutCap : Nat := 4

/-- The smallest `DEC_OUT_CAP` R7 admits: one byte. -/
def Config.minDecOutCap : Nat := 1

/-- The capacities `State.reset` carries. DESIGN CHOICE (log entry 2, unsafe if a claim rests on
it): R7 leaves them open; the largest admitted value stands for 'large enough'
(95_test_vectors.md). -/
def Config.largestParams : Params :=
  { encOutCap := Config.maxCapacity, decOutCap := Config.maxCapacity }

/-- `PAD`, the padding byte `=` (R7). -/
def Config.padByte : Byte := 0x3D#8

end Sys2Proof
end

