-- ==== Sys2Proof/Syntax.lean ====
section
/-! DEFINITION. The six commands of CORE (spec/opcode_table.json, R73), the one word format (R70),
what decoding a word can answer (R74), and what a byte is to the alphabet validator (R130). -/

namespace Sys2Proof

/-- The two units of CORE (R1); bit 10 of a command word selects one (R70). -/
inductive UnitId
  /-- `base64_encoder`, `U` = 0. -/
  | enc
  /-- `base64_decoder`, `U` = 1. -/
  | dec
deriving DecidableEq, Repr

/-- The commands, one constructor per row of the opcode table (R73). -/
inductive Instr
  /-- ENC_INIT (R106). -/
  | encInit
  /-- ENC_BYTE `d` (R107). -/
  | encByte (d : Byte)
  /-- ENC_FINAL (R108). -/
  | encFinal
  /-- DEC_INIT (R133). -/
  | decInit
  /-- DEC_CHAR `c` (R137). -/
  | decChar (c : Byte)
  /-- DEC_FINAL (R138). -/
  | decFinal
deriving DecidableEq, Repr

/-- The fields of format C (R70). -/
structure FormatC where
  /-- Bits 15:11, reserved, must be 0. -/
  rsv : BitVec 5
  /-- Bit 10, unit select. -/
  u : BitVec 1
  /-- Bits 9:8, operation. -/
  op : BitVec 2
  /-- Bits 7:0, data byte. -/
  d : Byte
deriving DecidableEq, Repr

/-- Why a word spells no command: the three classes of R75. -/
inductive IllegalReason
  /-- R75 (a): `RSV` is not 0. -/
  | reservedBits
  /-- R75 (b): `OP` is 3. -/
  | reservedOperation
  /-- R75 (c): INIT or FINAL with `D` not 0. -/
  | operandNotZero
deriving DecidableEq, Repr

/-- What decoding a 16-bit word answers (R74): a command, or `Illegal(unit)` with its class of R75. -/
inductive Decoded
  | command (i : Instr)
  | illegal (unit : UnitId) (why : IllegalReason)
deriving DecidableEq, Repr

/-- The classes of R130. -/
inductive CharClass
  /-- An alphabet member, with its index. -/
  | idx (v : Sextet)
  /-- The padding byte. -/
  | pad
  /-- Any other byte. -/
  | invalid
deriving DecidableEq, Repr

/-- The unit a command is for (R3, R73). -/
def Instr.unit : Instr → UnitId
  | .encInit | .encByte _ | .encFinal => .enc
  | .decInit | .decChar _ | .decFinal => .dec

end Sys2Proof
end

