-- ==== Sys2Proof/WellFormed.lean ====
section
/-! DEFINITION. The checks on raw data: the fields of a command word (R70, R75) and the open
parameters (R7). A term of `Instr` carries nothing but whole bytes, so every one is well formed. -/

namespace Sys2Proof

/-- The fields spell a command: `RSV` = 0, `OP` is not 3, and `D` = 0 but for DATA (R70, R75). -/
def FormatC.wf (f : FormatC) : Bool :=
  f.rsv == 0#5 && f.op != 3#2 && (f.op == 1#2 || f.d == 0#8)

/-- R7's bounds: 4 <= ENC_OUT_CAP <= 2^30 and 1 <= DEC_OUT_CAP <= 2^30. -/
def Params.wf (p : Params) : Bool :=
  decide (Config.minEncOutCap ≤ p.encOutCap) && decide (p.encOutCap ≤ Config.maxCapacity)
    && decide (Config.minDecOutCap ≤ p.decOutCap) && decide (p.decOutCap ≤ Config.maxCapacity)

end Sys2Proof
end

