-- ==== Sys2Proof/Decode.lean ====
section
/-! DEFINITION. Decoding a 16-bit command word (R70 to R75), total and rejecting by name, and the
encoder written from the table of R73. -/

namespace Sys2Proof

/-- The fields of a word: `RSV = w[15:11]`, `U = w[10]`, `OP = w[9:8]`, `D = w[7:0]` (R71). -/
def FormatC.ofWord (w : Word16) : FormatC :=
  { rsv := w.extractLsb' 11 5, u := w.extractLsb' 10 1, op := w.extractLsb' 8 2,
    d := w.extractLsb' 0 8 }

/-- The word with given fields (R70). -/
def FormatC.toWord (f : FormatC) : Word16 := f.rsv ++ f.u ++ f.op ++ f.d

/-- The unit bit 10 names (R70, R74); it routes illegal words too. -/
def unitOfWord (w : Word16) : UnitId :=
  if w.extractLsb' 10 1 = 1#1 then .dec else .enc

/-- INIT(unit) of R74. -/
def initOf : UnitId → Instr
  | .enc => .encInit
  | .dec => .decInit

/-- DATA(unit, D) of R74: ENC_BYTE or DEC_CHAR. -/
def dataOf : UnitId → Byte → Instr
  | .enc, d => .encByte d
  | .dec, c => .decChar c

/-- FINAL(unit) of R74. -/
def finalOf : UnitId → Instr
  | .enc => .encFinal
  | .dec => .decFinal

/-- The decoder of R74, total on all 65536 words. -/
def decode (w : Word16) : Decoded :=
  let f := FormatC.ofWord w
  let unit := unitOfWord w
  if f.rsv ≠ 0#5 then .illegal unit .reservedBits
  else if f.op = 0#2 then
    if f.d = 0#8 then .command (initOf unit) else .illegal unit .operandNotZero
  else if f.op = 1#2 then .command (dataOf unit f.d)
  else if f.op = 2#2 then
    if f.d = 0#8 then .command (finalOf unit) else .illegal unit .operandNotZero
  else .illegal unit .reservedOperation

/-- The word of a command, from the table of R73 and the assembler table of R78. -/
def encode : Instr → Word16
  | .encInit => 0x0000#16
  | .encByte d => 0x0100#16 ||| d.setWidth 16
  | .encFinal => 0x0200#16
  | .decInit => 0x0400#16
  | .decChar c => 0x0500#16 ||| c.setWidth 16
  | .decFinal => 0x0600#16

/-- The command word of an opcode-table number of `nbits` bits: bits above `nbits` are 0, and a
command has one word (R77). -/
def tableWord (nbits w : Nat) : Word16 := BitVec.ofNat 16 (w % 2 ^ nbits)

/-- The command `decode` reads from an opcode-table number; none where the word is illegal. -/
def decodeTableWord (nbits w : Nat) : Option Instr :=
  match decode (tableWord nbits w) with
  | .command i => some i
  | .illegal _ _ => none

/-- `decodeTableWord` on each of the table's fixed words and on one DATA word of each unit, the words
written out from R73. -/
theorem decode_table_words :
    decodeTableWord 16 0b0000000000000000 = some .encInit
    ∧ decodeTableWord 16 0b0000000101001101 = some (.encByte 0x4D#8)
    ∧ decodeTableWord 16 0b0000001000000000 = some .encFinal
    ∧ decodeTableWord 16 0b0000010000000000 = some .decInit
    ∧ decodeTableWord 16 0b0000010100111101 = some (.decChar 0x3D#8)
    ∧ decodeTableWord 16 0b0000011000000000 = some .decFinal := by decide

end Sys2Proof
end

