-- ==== Sys2Proof/Machine/State.lean ====
section
/-! DEFINITION. The state of CORE (R20, R23, R30) as plain data, the host's side of it (what is
still to be served and what has been answered), the reasons a step can stop, and the state after
reset (R230). -/

namespace Sys2Proof.Machine

open Sys2Proof

/-- `enc_phase` (R24). -/
inductive EncPhase
  /-- 0: no encode in progress since reset. -/
  | idle
  /-- 1: ENC_INIT seen, ENC_FINAL not yet. -/
  | active
  /-- 2: ENC_FINAL completed; `enc_out` holds the whole text. -/
  | done
deriving DecidableEq, Repr

/-- `enc_fault` (R29), raised under the conditions of R204. -/
inductive EncFault
  /-- 0, NONE. -/
  | noFault
  /-- 1, ILLEGAL_COMMAND. -/
  | illegalCommand
  /-- 2, SEQUENCE_ERROR. -/
  | sequenceError
  /-- 3, OUTPUT_OVERFLOW. -/
  | outputOverflow
deriving DecidableEq, Repr

/-- `dec_phase` (R31). -/
inductive DecPhase
  /-- 0: no decode in progress since reset. -/
  | idle
  /-- 1: DEC_INIT seen, no result yet. -/
  | active
  /-- 2: DEC_FINAL found zero held bits; `dec_out` is the result. -/
  | doneOk
  /-- 3: an architected error was raised. -/
  | doneErr
deriving DecidableEq, Repr

/-- `dec_err` (R35), the two architected errors of R200. -/
inductive DecErr
  /-- 0, NONE. -/
  | noError
  /-- 1, INVALID_SYMBOL. -/
  | invalidSymbol
  /-- 2, INVALID_PADDING. -/
  | invalidPadding
deriving DecidableEq, Repr

/-- `dec_fault` (R37), raised under the conditions of R204. -/
inductive DecFault
  /-- 0, NONE. -/
  | noFault
  /-- 1, ILLEGAL_COMMAND. -/
  | illegalCommand
  /-- 2, SEQUENCE_ERROR. -/
  | sequenceError
  /-- 3, OUTPUT_OVERFLOW. -/
  | outputOverflow
  /-- 4, PAD_UNDERFLOW. -/
  | padUnderflow
deriving DecidableEq, Repr

/-- The encoder unit's state elements (R23). -/
structure EncUnit where
  /-- `enc_phase`. -/
  phase : EncPhase
  /-- `enc_acc`: the pending bits, left-aligned at bit 15 (R25). -/
  acc : Word16
  /-- `enc_pend`: how many pending bits are valid (R26). -/
  pend : BitVec 4
  /-- `enc_mod3`: bytes accepted since ENC_INIT, mod 3 (R27). -/
  mod3 : BitVec 2
  /-- `enc_out`: the text emitted since ENC_INIT, first symbol first (R28, R52). -/
  out : List Byte
  /-- `enc_fault`: sticky (R205). -/
  fault : EncFault
deriving DecidableEq, Repr

/-- The decoder unit's state elements (R30). -/
structure DecUnit where
  /-- `dec_phase`. -/
  phase : DecPhase
  /-- `dec_acc`: the held bits, left-aligned at bit 15, with stale bits below them (R32, R45). -/
  acc : Word16
  /-- `dec_held`: the held-bit count (R33). -/
  held : BitVec 4
  /-- `dec_out`: the bytes extracted since DEC_INIT (R34, R52). -/
  out : List Byte
  /-- `dec_err`. -/
  err : DecErr
  /-- `dec_info`: the error payload (R36). -/
  info : Byte
  /-- `dec_fault`: sticky (R205). -/
  fault : DecFault
deriving DecidableEq, Repr

/-- What the host can do to CORE (R44, R55, R57, R58, R230, R233). -/
inductive HostEvent
  /-- A 16-bit word on the command port (R70). -/
  | command (w : Word16)
  /-- A read of the read port at a word address (R55). -/
  | read (addr : Word32)
  /-- The reset input `rst` (R230). -/
  | reset
  /-- Reset and a command arriving together (R233). -/
  | commandWithReset (w : Word16)
deriving DecidableEq, Repr

/-- The machine: the pair (ENC state, DEC state) of R20, and beside it the model's own fields, which
R46 lists as parameters and inputs of the step (log entries 1, 2, 3). -/
structure State where
  /-- The encoder unit. -/
  enc : EncUnit
  /-- The decoder unit. -/
  dec : DecUnit
  /-- The OPEN parameters of R7; no step changes them. -/
  params : Params
  /-- Events the host has issued and CORE has not served, oldest first (R58). -/
  host : List HostEvent
  /-- The reads served so far, oldest first: address and value. The host holds them, not CORE. -/
  answers : List (Word32 × Word32)
deriving DecidableEq, Repr

/-- Reasons for which a step of the whole machine stops with a fault: there are none. CORE's own
faults (R203) are recorded in `EncUnit.fault` and `DecUnit.fault` and the machine goes on (R205,
R208, R238), so nobody raises a `Fault`; having none is safe only because the spec says that no
sequence of commands can hang CORE. -/
inductive Fault
deriving DecidableEq, Repr

/-- Reasons for which an instruction has no meaning. -/
inductive Refusal
  /-- Raised by `exec`'s arm of an instruction the model does not cover, by its mnemonic; no arm
  does, since all six commands have their meaning. Stopping so is safe. -/
  | notModelled (mnemonic : String)
deriving DecidableEq, Repr

/-- The encoder unit after reset (R23, R230). -/
def EncUnit.reset : EncUnit :=
  { phase := .idle, acc := 0x0000#16, pend := 0#4, mod3 := 0#2, out := [], fault := .noFault }

/-- The decoder unit after reset (R30, R230). -/
def DecUnit.reset : DecUnit :=
  { phase := .idle, acc := 0x0000#16, held := 0#4, out := [], err := .noError, info := 0x00#8,
    fault := .noFault }

/-- The machine after reset for given capacities, with no event issued and no read answered. -/
def State.resetWith (p : Params) : State :=
  { enc := EncUnit.reset, dec := DecUnit.reset, params := p, host := [], answers := [] }

/-- The machine right after reset (R230). Its capacities are a DESIGN CHOICE (log entry 2). -/
def State.reset : State := State.resetWith Config.largestParams

end Sys2Proof.Machine
end

