-- ==== Sys2Proof/Machine/Operands.lean ====
section
/-! DEFINITION. The operands' tables: the alphabet lookup ALPHA (R100) and the alphabet validator
REV (R130). They are constant and no command writes them (R39). -/

namespace Sys2Proof.Machine

open Sys2Proof

/-- `ALPHA[i]`, in the closed form of R100. -/
def alpha (i : Sextet) : Byte :=
  let n := i.setWidth 8
  if n ≤ 25#8 then 0x41#8 + n
  else if n ≤ 51#8 then 0x61#8 + (n - 26#8)
  else if n ≤ 61#8 then 0x30#8 + (n - 52#8)
  else if n = 62#8 then 0x2B#8
  else 0x2F#8

/-- `REV(c)`, by the byte ranges of R130. -/
def rev (c : Byte) : CharClass :=
  if 0x41#8 ≤ c ∧ c ≤ 0x5A#8 then .idx ((c - 0x41#8).setWidth 6)
  else if 0x61#8 ≤ c ∧ c ≤ 0x7A#8 then .idx ((c - 0x47#8).setWidth 6)
  else if 0x30#8 ≤ c ∧ c ≤ 0x39#8 then .idx ((c + 0x04#8).setWidth 6)
  else if c = 0x2B#8 then .idx 62#6
  else if c = 0x2F#8 then .idx 63#6
  else if c = Config.padByte then .pad
  else .invalid

/-- A byte that may stand in `enc_out`: an alphabet byte or the padding byte (R28). -/
def isTextByte (c : Byte) : Bool :=
  match rev c with
  | .idx _ => true
  | .pad => true
  | .invalid => false

/-- An alphabet byte (R100). -/
def isAlphabetByte (c : Byte) : Bool :=
  match rev c with
  | .idx _ => true
  | .pad => false
  | .invalid => false

end Sys2Proof.Machine
end

