-- ==== Sys2Proof/Machine/Ops.lean ====
section
/-! DEFINITION. The operations the meanings share: routing a command to its unit and ignoring it
when the unit is faulted (R205, R206), raising a fault and an architected error, the datapath
sub-blocks EXTRACT, PADCOUNT, INSERT, RECON (R104, R105, R134, R136), the illegal command (R204) and
the hardware reset (R230). CORE has no trap entry and no return (R208): raising a fault is the whole
of taking an exception here. -/

namespace Sys2Proof.Machine

open Sys2Proof

/-- `raise Fault(code)` in the encoder: only the fault field is written (R10, R205). -/
def EncUnit.raise (u : EncUnit) (f : EncFault) : EncUnit := { u with fault := f }

/-- `raise Fault(code)` in the decoder: only the fault field is written (R10, R205). -/
def DecUnit.raise (u : DecUnit) (f : DecFault) : DecUnit := { u with fault := f }

/-- An architected decode error (R200 to R202): the kind and payload are recorded, the output is
emptied, the phase is DONE_ERR; the accumulator and the count keep their values. -/
def DecUnit.fail (u : DecUnit) (e : DecErr) (info : Byte) : DecUnit :=
  { u with err := e, info := info, out := [], phase := .doneErr }

/-- A command routed to the encoder: ignored when the unit is faulted, else its body's effect on the
encoder, nothing else (R20, R205, R206). -/
def encCommand (body : Params → EncUnit → EncUnit) (s : State) : State :=
  if s.enc.fault = .noFault then { s with enc := body s.params s.enc } else s

/-- A command routed to the decoder: as `encCommand`, on the decoder. -/
def decCommand (body : Params → DecUnit → DecUnit) (s : State) : State :=
  if s.dec.fault = .noFault then { s with dec := body s.params s.dec } else s

/-- An illegal word routed to a unit (R74, R204): ILLEGAL_COMMAND there, unless the unit is already
faulted (R206). -/
def illegalCommand (unit : UnitId) (s : State) : State :=
  match unit with
  | .enc => encCommand (fun _ u => u.raise .illegalCommand) s
  | .dec => decCommand (fun _ u => u.raise .illegalCommand) s

/-- One turn of EXTRACT's loop (R104): the top group becomes a symbol. -/
def EncUnit.emitGroup (u : EncUnit) : EncUnit :=
  { u with out := u.out ++ [alpha (u.acc.extractLsb' 10 6)], acc := u.acc <<< 6, pend := u.pend - 6#4 }

/-- EXTRACT's loop (R104), at most `turns` times. -/
def EncUnit.extractLoop : Nat → EncUnit → EncUnit
  | 0, u => u
  | n + 1, u => if 6 ≤ u.pend.toNat then EncUnit.extractLoop n u.emitGroup else u

/-- EXTRACT (R104). Two turns are the whole loop for every value of the 4-bit count (15 - 6 - 6 < 6;
`Laws.extract_pend_lt`). -/
def EncUnit.extract (u : EncUnit) : EncUnit := EncUnit.extractLoop 2 u

/-- How many symbols ENC_BYTE emits: `(enc_pend + 8) div 6` (R107). -/
def symbolsCompleted (pend : BitVec 4) : Nat := (pend.toNat + 8) / 6

/-- `(m + 1) mod 3` (R107). -/
def nextMod3 (m : BitVec 2) : BitVec 2 := BitVec.ofNat 2 ((m.toNat + 1) % 3)

/-- PADCOUNT(m) = (3 - m) mod 3 (R105). -/
def padCount (m : BitVec 2) : Nat := (3 - m.toNat) % 3

/-- INSERT(v) (R134): an OR directly below the held bits, which does not clear them first. -/
def DecUnit.insert (u : DecUnit) (v : Sextet) : DecUnit :=
  { u with acc := u.acc ||| (v.setWidth 16 <<< (10 - u.held.toNat)), held := u.held + 6#4 }

/-- One turn of RECON's loop (R136): the top byte is output. -/
def DecUnit.emitByte (u : DecUnit) : DecUnit :=
  { u with out := u.out ++ [u.acc.extractLsb' 8 8], acc := u.acc <<< 8, held := u.held - 8#4 }

/-- RECON's loop (R136), at most `turns` times. -/
def DecUnit.reconLoop : Nat → DecUnit → DecUnit
  | 0, u => u
  | n + 1, u => if 8 ≤ u.held.toNat then DecUnit.reconLoop n u.emitByte else u

/-- RECON (R136). One turn is the whole loop for every value of the 4-bit count (15 - 8 < 8;
`Laws.recon_held_lt`). -/
def DecUnit.recon (u : DecUnit) : DecUnit := DecUnit.reconLoop 1 u

/-- PADSTEP (R135): PAD_UNDERFLOW below 2 held bits, else two bits fewer and `dec_acc` unchanged. -/
def DecUnit.padStep (u : DecUnit) : DecUnit :=
  if u.held.toNat < 2 then u.raise .padUnderflow else { u with held := u.held - 2#4 }

/-- The hardware reset (R230): every element of R23 and R30 at its reset value; the parameters, the
pending events and the answers already given are not CORE's. -/
def resetUnits (s : State) : State := { s with enc := EncUnit.reset, dec := DecUnit.reset }

end Sys2Proof.Machine
end

