-- ==== Sys2Proof/Machine/Decoder.lean ====
section
/-! DEFINITION. The decoder unit's commands: DEC_INIT (R133), DEC_CHAR (R137), DEC_FINAL (R138). Each
body is the rule's pseudocode, which begins after the faulted check of R206. -/

namespace Sys2Proof.Machine

open Sys2Proof

/-- R133's pseudocode: every element but the fault is emptied and the phase is ACTIVE. -/
def decInitBody (_ : Params) (u : DecUnit) : DecUnit :=
  { u with acc := 0x0000#16, held := 0#4, out := [], err := .noError, info := 0x00#8,
           phase := .active }

/-- How many bytes an alphabet symbol completes: 1 when `dec_held + 6 >= 8`, else 0 (R137). -/
def bytesCompleted (held : BitVec 4) : Nat := if held.toNat + 6 ≥ 8 then 1 else 0

/-- R137's case on `REV(c)`, in phase ACTIVE. RECON follows PADSTEP and INSERT both. -/
def decCharActive (c : Byte) (p : Params) (u : DecUnit) : DecUnit :=
  match rev c with
  | .invalid => u.fail .invalidSymbol c
  | .pad => if u.held.toNat < 2 then u.padStep else u.padStep.recon
  | .idx v =>
    if u.out.length + bytesCompleted u.held > p.decOutCap then u.raise .outputOverflow
    else (u.insert v).recon

/-- R137's pseudocode: ignored in DONE_ERR, SEQUENCE_ERROR outside ACTIVE. -/
def decCharBody (c : Byte) (p : Params) (u : DecUnit) : DecUnit :=
  if u.phase = .doneErr then u
  else if u.phase ≠ .active then u.raise .sequenceError
  else decCharActive c p u

/-- R138's pseudocode: ignored in DONE_ERR, SEQUENCE_ERROR outside ACTIVE, else the result. -/
def decFinalBody (_ : Params) (u : DecUnit) : DecUnit :=
  if u.phase = .doneErr then u
  else if u.phase ≠ .active then u.raise .sequenceError
  else if u.held ≠ 0#4 then u.fail .invalidPadding (u.held.setWidth 8)
  else { u with phase := .doneOk }

/-- DEC_INIT (R133). -/
def execDecInit (s : State) : Host.Outcome State Fault Refusal :=
  .next (decCommand decInitBody s)

/-- DEC_CHAR `c` (R137). -/
def execDecChar (c : Byte) (s : State) : Host.Outcome State Fault Refusal :=
  .next (decCommand (decCharBody c) s)

/-- DEC_FINAL (R138). -/
def execDecFinal (s : State) : Host.Outcome State Fault Refusal :=
  .next (decCommand decFinalBody s)

end Sys2Proof.Machine
end

