-- ==== Sys2Proof/Machine/Encoder.lean ====
section
/-! DEFINITION. The encoder unit's commands: ENC_INIT (R106), ENC_BYTE (R107), ENC_FINAL (R108). Each
body is the rule's pseudocode, which begins after the faulted check of R206. -/

namespace Sys2Proof.Machine

open Sys2Proof

/-- R106's pseudocode: every element but the fault is emptied and the phase is ACTIVE. -/
def encInitBody (_ : Params) (u : EncUnit) : EncUnit :=
  { u with acc := 0x0000#16, pend := 0#4, mod3 := 0#2, out := [], phase := .active }

/-- R107's accumulator write: `d` goes directly below the pending bits, a shift of `8 - enc_pend`. -/
def EncUnit.accept (u : EncUnit) (d : Byte) : EncUnit :=
  { u with acc := u.acc ||| (d.setWidth 16 <<< (8 - u.pend.toNat)), pend := u.pend + 8#4,
           mod3 := nextMod3 u.mod3 }

/-- R107's pseudocode. -/
def encByteBody (d : Byte) (p : Params) (u : EncUnit) : EncUnit :=
  if u.phase ≠ .active then u.raise .sequenceError
  else if u.out.length + symbolsCompleted u.pend > p.encOutCap then u.raise .outputOverflow
  else (u.accept d).extract

/-- The bytes ENC_FINAL appends (R108): the zero-filled partial group if one is pending, then the
padding. -/
def EncUnit.tail (u : EncUnit) : List Byte :=
  (if u.pend.toNat > 0 then [alpha (u.acc.extractLsb' 10 6)] else [])
    ++ List.replicate (padCount u.mod3) Config.padByte

/-- R108's pseudocode. -/
def encFinalBody (p : Params) (u : EncUnit) : EncUnit :=
  if u.phase ≠ .active then u.raise .sequenceError
  else if u.out.length + u.tail.length > p.encOutCap then u.raise .outputOverflow
  else { u with out := u.out ++ u.tail, acc := 0x0000#16, pend := 0#4, mod3 := 0#2, phase := .done }

/-- ENC_INIT (R106). -/
def execEncInit (s : State) : Host.Outcome State Fault Refusal :=
  .next (encCommand encInitBody s)

/-- ENC_BYTE `d` (R107). -/
def execEncByte (d : Byte) (s : State) : Host.Outcome State Fault Refusal :=
  .next (encCommand (encByteBody d) s)

/-- ENC_FINAL (R108). -/
def execEncFinal (s : State) : Host.Outcome State Fault Refusal :=
  .next (encCommand encFinalBody s)

end Sys2Proof.Machine
end

