-- ==== Sys2Proof/Machine/Dispatch.lean ====
section
/-! DEFINITION. One arm per command: the meaning each one has. -/

namespace Sys2Proof.Machine

open Sys2Proof

def exec (i : Instr) (s : State) : Host.Outcome State Fault Refusal :=
  match i with
  | .encInit => Sys2Proof.Machine.execEncInit s
  | .encByte d => Sys2Proof.Machine.execEncByte d s
  | .encFinal => Sys2Proof.Machine.execEncFinal s
  | .decInit => Sys2Proof.Machine.execDecInit s
  | .decChar c => Sys2Proof.Machine.execDecChar c s
  | .decFinal => Sys2Proof.Machine.execDecFinal s

end Sys2Proof.Machine
end

