-- ==== Sys2Proof/Machine/Flags.lean ====
section
/-! DEFINITION. The status fields' codes (R24, R29, R31, R35, R37) and the two status registers
computed from them (R40, R42). CORE has no condition codes (R38). -/

namespace Sys2Proof.Machine

open Sys2Proof

/-- The code of `enc_phase` (R24). -/
def EncPhase.code : EncPhase → BitVec 2
  | .idle => 0#2
  | .active => 1#2
  | .done => 2#2

/-- The code of `dec_phase` (R31). -/
def DecPhase.code : DecPhase → BitVec 2
  | .idle => 0#2
  | .active => 1#2
  | .doneOk => 2#2
  | .doneErr => 3#2

/-- The code of `dec_err` (R35). -/
def DecErr.code : DecErr → BitVec 2
  | .noError => 0#2
  | .invalidSymbol => 1#2
  | .invalidPadding => 2#2

/-- The code of `enc_fault` (R29, R203). -/
def EncFault.code : EncFault → BitVec 4
  | .noFault => 0#4
  | .illegalCommand => 1#4
  | .sequenceError => 2#4
  | .outputOverflow => 3#4

/-- The code of `dec_fault` (R37, R203). -/
def DecFault.code : DecFault → BitVec 4
  | .noFault => 0#4
  | .illegalCommand => 1#4
  | .sequenceError => 2#4
  | .outputOverflow => 3#4
  | .padUnderflow => 4#4

/-- ENC_STATUS (R40): fault [11:8], mod3 [7:6], pend [5:2], phase [1:0], the rest 0. -/
def encStatus (u : EncUnit) : Word32 :=
  0#20 ++ u.fault.code ++ u.mod3 ++ u.pend ++ u.phase.code

/-- DEC_STATUS (R42): fault [11:8], err [7:6], held [5:2], phase [1:0], the rest 0. -/
def decStatus (u : DecUnit) : Word32 :=
  0#20 ++ u.fault.code ++ u.err.code ++ u.held ++ u.phase.code

end Sys2Proof.Machine
end

