-- ==== Sys2Proof/Machine/ReadPort.lean ====
section
/-! DEFINITION. The read port and its address map (R55): every value is computed from the state at the
time of the read, and a read changes no unit (R56). -/

namespace Sys2Proof.Machine

open Sys2Proof

/-- A buffer window's entry: element `i` zero-extended, or 0 past the end (R55). -/
def windowEntry (out : List Byte) (i : Nat) : Word32 :=
  (out.getD i 0x00#8).setWidth 32

/-- The decoder's output as the host may see it: gated by DONE_OK (R34, R43, R55). -/
def DecUnit.visibleOut (u : DecUnit) : List Byte :=
  if u.phase = .doneOk then u.out else []

/-- `PortRead(addr)` (R55). -/
def portRead (s : State) (addr : Word32) : Word32 :=
  if addr = 0x00000000#32 then encStatus s.enc
  else if addr = 0x00000001#32 then s.enc.acc.setWidth 32
  else if addr = 0x00000002#32 then BitVec.ofNat 32 s.enc.out.length
  else if addr = 0x00000003#32 then decStatus s.dec
  else if addr = 0x00000004#32 then s.dec.acc.setWidth 32
  else if addr = 0x00000005#32 then s.dec.info.setWidth 32
  else if addr = 0x00000006#32 then BitVec.ofNat 32 s.dec.visibleOut.length
  else if 0x40000000#32 ≤ addr ∧ addr < 0x80000000#32 then
    windowEntry s.enc.out (addr - 0x40000000#32).toNat
  else if 0x80000000#32 ≤ addr ∧ addr < 0xC0000000#32 then
    windowEntry s.dec.visibleOut (addr - 0x80000000#32).toNat
  else 0x00000000#32

/-- Serving a read: the host is given the value; CORE is unchanged (R56). -/
def answerRead (addr : Word32) (s : State) : State :=
  { s with answers := s.answers ++ [(addr, portRead s addr)] }

end Sys2Proof.Machine
end

