-- ==== Sys2Proof/Machine/Serve.lean ====
section
/-! DEFINITION. Serving the host's events one at a time, in issue order (R57, R58, R233, R234). -/

namespace Sys2Proof.Machine

open Sys2Proof

/-- One command word: decoded (R74) and run, or ILLEGAL_COMMAND in the unit bit 10 names (R75). The
faulted-ignore check, which R206 puts first, stands in `encCommand` and `decCommand`, which both
outcomes go through. -/
def serveCommand (w : Word16) (s : State) : Host.Outcome State Fault Refusal :=
  match decode w with
  | .command i => exec i s
  | .illegal unit _ => .next (illegalCommand unit s)

/-- One event of the host. When reset and a command arrive together the command is served and the
reset is the very next event (R233). -/
def serveEvent (e : HostEvent) (s : State) : Host.Outcome State Fault Refusal :=
  match e with
  | .command w => serveCommand w s
  | .read addr => .next (answerRead addr s)
  | .reset => .next (resetUnits s)
  | .commandWithReset w => serveCommand w { s with host := .reset :: s.host }

/-- The oldest pending event is taken off and served; with none pending the state stays as it is
(R218). -/
def serveNext (s : State) : Host.Outcome State Fault Refusal :=
  match s.host with
  | [] => .next s
  | e :: rest => serveEvent e { s with host := rest }

/-- The host issues an event: it is served after everything issued before it (R58). -/
def State.issue (s : State) (e : HostEvent) : State := { s with host := s.host ++ [e] }

/-- The host issues a command word that is served next. -/
def State.issueNext (s : State) (w : Word16) : State := { s with host := .command w :: s.host }

end Sys2Proof.Machine
end

