-- ==== Sys2Proof/Machine/Step.lean ====
section
/-! DEFINITION. One step of the machine: one event of the host is served (R58, R234). -/

namespace Sys2Proof.Machine

open Sys2Proof

/-- One step: see `serveNext`. -/
def step (s : State) : Host.Outcome State Fault Refusal := serveNext s

/-- `s` with an opcode-table number as the command the host has issued to be served next. -/
def State.withFetchWord (s : State) (nbits w : Nat) : State := s.issueNext (tableWord nbits w)

end Sys2Proof.Machine
end

