-- ==== Sys2Proof/Machine/Assembler.lean ====
section
/-! DEFINITION. The assembler of R78 and the pseudo-instructions of R79: from source text to the host
events it stands for. Where R78 is silent on the text's form, log entry 7 says what is read. -/

namespace Sys2Proof.Machine

open Sys2Proof

/-- One line's content (R78, R79). Numbers are as written, before any range check. -/
inductive AsmLine
  /-- `enc.init` -/
  | encInit
  /-- `enc.byte IMM8` -/
  | encByte (imm : Nat)
  /-- `enc.final` -/
  | encFinal
  /-- `dec.init` -/
  | decInit
  /-- `dec.char IMM8`, or `dec.char 'c'` with the ASCII code of c -/
  | decChar (imm : Nat)
  /-- `dec.final` -/
  | decFinal
  /-- `.word IMM16` -/
  | word (imm : Nat)
  /-- `rd ADDR -> value`: a host read with the value the program expects -/
  | rd (addr value : Nat)
  /-- `enc.bytes b0, ..., bk` -/
  | encBytes (imms : List Nat)
  /-- `enc.run b0, ..., bk`, or `enc.run` with no operand -/
  | encRun (imms : List Nat)
  /-- `dec.str "t"` -/
  | decStr (codes : List Nat)
  /-- `dec.run "t"` -/
  | decRun (codes : List Nat)
deriving DecidableEq, Repr

/-- `IMM8`: 0 to 255, else rejected (R78). -/
def imm8 (n : Nat) : Option Byte := if n ≤ 255 then some (BitVec.ofNat 8 n) else none

/-- `IMM16`: one word, unchanged; it may be illegal (R78). -/
def imm16 (n : Nat) : Option Word16 := if n ≤ 65535 then some (BitVec.ofNat 16 n) else none

/-- A string character's code: printable ASCII only (R79). -/
def printable (n : Nat) : Option Byte :=
  if 0x20 ≤ n ∧ n ≤ 0x7E then some (BitVec.ofNat 8 n) else none

/-- All of a list's elements converted, or none. -/
def convertAll (f : Nat → Option Byte) : List Nat → Option (List Byte)
  | [] => some []
  | n :: ns =>
    match f n, convertAll f ns with
    | some b, some bs => some (b :: bs)
    | _, _ => none

/-- The commands a line expands to (R78, R79), or none where the assembler rejects the line. A `rd`
line is a host action and has no encoding. -/
def AsmLine.words : AsmLine → Option (List Word16)
  | .encInit => some [encode .encInit]
  | .encByte n => (imm8 n).map fun d => [encode (.encByte d)]
  | .encFinal => some [encode .encFinal]
  | .decInit => some [encode .decInit]
  | .decChar n => (imm8 n).map fun c => [encode (.decChar c)]
  | .decFinal => some [encode .decFinal]
  | .word n => (imm16 n).map fun w => [w]
  | .rd _ _ => some []
  | .encBytes ns => (convertAll imm8 ns).map fun ds => ds.map fun d => encode (.encByte d)
  | .encRun ns => (convertAll imm8 ns).map fun ds =>
      [encode .encInit] ++ (ds.map fun d => encode (.encByte d)) ++ [encode .encFinal]
  | .decStr ns => (convertAll printable ns).map fun cs => cs.map fun c => encode (.decChar c)
  | .decRun ns => (convertAll printable ns).map fun cs =>
      [encode .decInit] ++ (cs.map fun c => encode (.decChar c)) ++ [encode .decFinal]

/-- The host events of a line: its commands, or the read it states. -/
def AsmLine.events (l : AsmLine) : Option (List HostEvent) :=
  match l with
  | .rd a v =>
    if a < 4294967296 ∧ v < 4294967296 then some [.read (BitVec.ofNat 32 a)] else none
  | _ => l.words.map fun ws => ws.map HostEvent.command

/-- The answer a line states, for a host read (R78). -/
def AsmLine.expected (l : AsmLine) : List (Word32 × Word32) :=
  match l with
  | .rd a v => [(BitVec.ofNat 32 a, BitVec.ofNat 32 v)]
  | _ => []

/-- All lines' events in order, or none where one line is rejected. -/
def programEvents : List AsmLine → Option (List HostEvent)
  | [] => some []
  | l :: ls =>
    match l.events, programEvents ls with
    | some es, some rest => some (es ++ rest)
    | _, _ => none

/-! ### From text to lines -/

/-- A blank inside a line. -/
def isBlank (c : Char) : Bool := c == ' ' || c == '\t' || c == '\r'

/-- A line without its leading blanks. -/
def dropBlanks : List Char → List Char
  | [] => []
  | c :: cs => if isBlank c then dropBlanks cs else c :: cs

/-- A line without its leading and trailing blanks. -/
def trimBlanks (l : List Char) : List Char := (dropBlanks (dropBlanks l).reverse).reverse

/-- A decimal digit's value. -/
def decDigit (c : Char) : Option Nat :=
  if '0' ≤ c ∧ c ≤ '9' then some (c.toNat - '0'.toNat) else none

/-- A hexadecimal digit's value. -/
def hexDigit (c : Char) : Option Nat :=
  if '0' ≤ c ∧ c ≤ '9' then some (c.toNat - '0'.toNat)
  else if 'a' ≤ c ∧ c ≤ 'f' then some (c.toNat - 'a'.toNat + 10)
  else if 'A' ≤ c ∧ c ≤ 'F' then some (c.toNat - 'A'.toNat + 10)
  else none

/-- Digits in a base, most significant first, onto a value read so far. -/
def readDigits (digit : Char → Option Nat) (base : Nat) : Nat → List Char → Option Nat
  | acc, [] => some acc
  | acc, c :: cs =>
    match digit c with
    | some d => readDigits digit base (acc * base + d) cs
    | none => none

/-- A number in decimal or with `0x` before it (R78), blanks around it dropped. -/
def readNumber (l : List Char) : Option Nat :=
  match trimBlanks l with
  | '0' :: 'x' :: [] => none
  | '0' :: 'x' :: cs => readDigits hexDigit 16 0 cs
  | [] => none
  | cs => readDigits decDigit 10 0 cs

/-- A text cut at each separator character. -/
def splitAt (sep : Char) : List Char → List (List Char)
  | [] => [[]]
  | c :: cs =>
    if c = sep then [] :: splitAt sep cs
    else
      match splitAt sep cs with
      | [] => [[c]]
      | p :: ps => (c :: p) :: ps

/-- All numbers of a list of pieces, or none. -/
def readNumbers : List (List Char) → Option (List Nat)
  | [] => some []
  | p :: ps =>
    match readNumber p, readNumbers ps with
    | some n, some ns => some (n :: ns)
    | _, _ => none

/-- The text before the comment (R78): a `;` outside a quoted string or character starts it. The
first argument is the quote being read, if any. -/
def dropComment : Option Char → List Char → List Char
  | _, [] => []
  | none, ';' :: _ => []
  | none, '\'' :: c :: '\'' :: cs => '\'' :: c :: '\'' :: dropComment none cs
  | none, '"' :: cs => '"' :: dropComment (some '"') cs
  | none, c :: cs => c :: dropComment none cs
  | some q, c :: cs => c :: dropComment (if c = q then none else some q) cs

/-- A double-quoted string: the codes of its characters. -/
def readString (l : List Char) : Option (List Nat) :=
  match trimBlanks l with
  | '"' :: cs =>
    match cs.reverse with
    | '"' :: rcs => if rcs.contains '"' then none else some (rcs.reverse.map Char.toNat)
    | _ => none
  | _ => none

/-- DEC_CHAR's operand: a character in single quotes, an ASCII one, or a number (R78). -/
def readCharOperand (l : List Char) : Option Nat :=
  match trimBlanks l with
  | ['\'', c, '\''] => if c.toNat < 128 then some c.toNat else none
  | cs => readNumber cs

/-- The operands of `rd`: `ADDR -> value` (R78). DESIGN CHOICE (log entry 7): blanks around the arrow are
optional, and blanks between its `-` and its `>` are read as well. -/
def readRd (l : List Char) : Option AsmLine :=
  match splitAt '>' l with
  | [before, after] =>
    match (trimBlanks before).reverse with
    | '-' :: rcs =>
      match readNumber rcs.reverse, readNumber after with
      | some a, some v => some (.rd a v)
      | _, _ => none
    | _ => none
  | _ => none

/-- The mnemonic and the rest of a trimmed line. -/
def cutMnemonic : List Char → List Char × List Char
  | [] => ([], [])
  | c :: cs => if isBlank c then ([], cs) else ((c :: (cutMnemonic cs).1), (cutMnemonic cs).2)

/-- A line of a mnemonic that takes no operand. -/
def plainLine (line : AsmLine) (rest : List Char) : Option AsmLine :=
  if trimBlanks rest = [] then some line else none

/-- One line's mnemonic and operands (R78, R79). -/
def readMnemonic (m rest : List Char) : Option AsmLine :=
  if m = "enc.init".toList then plainLine .encInit rest
  else if m = "enc.byte".toList then (readNumber rest).map .encByte
  else if m = "enc.final".toList then plainLine .encFinal rest
  else if m = "dec.init".toList then plainLine .decInit rest
  else if m = "dec.char".toList then (readCharOperand rest).map .decChar
  else if m = "dec.final".toList then plainLine .decFinal rest
  else if m = ".word".toList then (readNumber rest).map .word
  else if m = "rd".toList then readRd rest
  else if m = "enc.bytes".toList then (readNumbers (splitAt ',' rest)).map .encBytes
  else if m = "enc.run".toList then
    if trimBlanks rest = [] then some (.encRun [])
    else (readNumbers (splitAt ',' rest)).map .encRun
  else if m = "dec.str".toList then (readString rest).map .decStr
  else if m = "dec.run".toList then (readString rest).map .decRun
  else none

/-- One source line: no content (an empty or comment line), a line, or none where it is rejected. -/
def readLine (l : List Char) : Option (List AsmLine) :=
  match trimBlanks (dropComment none l) with
  | [] => some []
  | cs => (readMnemonic (cutMnemonic cs).1 (cutMnemonic cs).2).map fun x => [x]

/-- All source lines, or none where one is rejected. -/
def readLines : List (List Char) → Option (List AsmLine)
  | [] => some []
  | l :: ls =>
    match readLine l, readLines ls with
    | some x, some xs => some (x ++ xs)
    | _, _ => none

/-- A program text, one command a line (R78). -/
def readProgram (text : List Char) : Option (List AsmLine) := readLines (splitAt '\n' text)

/-- The host events of a program text, or none where the assembler rejects it. -/
def assemble (text : List Char) : Option (List HostEvent) :=
  match readProgram text with
  | some ls => programEvents ls
  | none => none

end Sys2Proof.Machine
end

