-- ==== Sys2Proof/Machine/Contract.lean ====
section
/-! DEFINITION. The two contracts over whole inputs, ENCODE (R101) and DECODE (R131), written from the
rules and apart from the commands' datapath; and the command sequences R109 and R139 tie to them. -/

namespace Sys2Proof.Machine

open Sys2Proof

/-- Stream bit `k` of a byte list, most significant bit first (R11): `B[8j+t] = b[j][7-t]`, and 0
beyond the input (R101). -/
def streamBit (b : List Byte) (k : Nat) : Bool := (b.getD (k / 8) 0#8).getLsbD (7 - k % 8)

/-- `g_k`: six stream bits from offset `6k`, the first one bit 5 (R11, R101). -/
def streamGroup (b : List Byte) (k : Nat) : Sextet :=
  BitVec.ofBool (streamBit b (6 * k)) ++ BitVec.ofBool (streamBit b (6 * k + 1))
    ++ BitVec.ofBool (streamBit b (6 * k + 2)) ++ BitVec.ofBool (streamBit b (6 * k + 3))
    ++ BitVec.ofBool (streamBit b (6 * k + 4)) ++ BitVec.ofBool (streamBit b (6 * k + 5))

/-- `S = ceil(8n / 6)` (R101). -/
def dataSymbols (n : Nat) : Nat := (8 * n + 5) / 6

/-- `P` (R101). -/
def padSymbols (n : Nat) : Nat := if n % 3 = 0 then 0 else 3 - n % 3

/-- `ENCODE(b)` (R101). -/
def encodeText (b : List Byte) : List Byte :=
  (List.range (dataSymbols b.length)).map (fun k => alpha (streamGroup b k))
    ++ List.replicate (padSymbols b.length) Config.padByte

/-- `4 * ceil(n / 3)`, the length of `ENCODE(b)` for n bytes (R102). -/
def encodedLength (n : Nat) : Nat := 4 * ((n + 2) / 3)

/-- The outcomes of DECODE (R132). -/
inductive DecodeOutcome
  | ok (out : List Byte)
  | invalidSymbol (c : Byte)
  | invalidPadding (held : Nat)
  | padUnderflow
deriving DecidableEq, Repr

/-- DECODE's variables (R131). -/
structure DecodeVars where
  acc : Word16
  held : Nat
  out : List Byte
deriving DecidableEq, Repr

/-- R131's first line. -/
def DecodeVars.start : DecodeVars := { acc := 0x0000#16, held := 0, out := [] }

/-- R131's inner loop `while held >= 8`, at most `turns` times. -/
def DecodeVars.drainLoop : Nat → DecodeVars → DecodeVars
  | 0, v => v
  | n + 1, v =>
    if 8 ≤ v.held then
      DecodeVars.drainLoop n
        { acc := v.acc <<< 8, held := v.held - 8, out := v.out ++ [v.acc.extractLsb' 8 8] }
    else v

/-- R131's inner loop: `held` turns are more than it takes. -/
def DecodeVars.drain (v : DecodeVars) : DecodeVars := DecodeVars.drainLoop v.held v

/-- One character of R131's outer loop: the variables after it, or the outcome that ends DECODE. -/
def DecodeVars.take (v : DecodeVars) (c : Byte) : DecodeVars ⊕ DecodeOutcome :=
  match rev c with
  | .idx x =>
    .inl (DecodeVars.drain
      { v with acc := v.acc ||| (x.setWidth 16 <<< (10 - v.held)), held := v.held + 6 })
  | .pad => if v.held < 2 then .inr .padUnderflow else .inl (DecodeVars.drain { v with held := v.held - 2 })
  | .invalid => .inr (.invalidSymbol c)

/-- R131 from given variables on. -/
def decodeFrom (v : DecodeVars) : List Byte → DecodeOutcome
  | [] => if v.held ≠ 0 then .invalidPadding v.held else .ok v.out
  | c :: t =>
    match v.take c with
    | .inl v' => decodeFrom v' t
    | .inr o => o

/-- `DECODE(t)` (R131). -/
def decodeText (t : List Byte) : DecodeOutcome := decodeFrom DecodeVars.start t

/-- How many bytes DECODE has extracted when it ends, from given variables on. -/
def bytesNeededFrom (v : DecodeVars) : List Byte → Nat
  | [] => v.out.length
  | c :: t =>
    match v.take c with
    | .inl v' => bytesNeededFrom v' t
    | .inr _ => v.out.length

/-- How many bytes of output buffer `DECODE(t)` needs (R139): it only ever appends, so the bytes it
has extracted when it ends. -/
def bytesNeeded (t : List Byte) : Nat := bytesNeededFrom DecodeVars.start t

/-- The command sequence of R109: ENC_INIT, one ENC_BYTE per byte, ENC_FINAL. -/
def encodeCommands (b : List Byte) : List Instr := .encInit :: (b.map .encByte ++ [.encFinal])

/-- The command sequence of R139: DEC_INIT, one DEC_CHAR per character, DEC_FINAL. -/
def decodeCommands (t : List Byte) : List Instr := .decInit :: (t.map .decChar ++ [.decFinal])

/-- The command words of R109's sequence. -/
def encodeWords (b : List Byte) : List Word16 := (encodeCommands b).map encode

/-- The command words of R139's sequence. -/
def decodeWords (t : List Byte) : List Word16 := (decodeCommands t).map encode

end Sys2Proof.Machine
end

