-- ==== Sys2Proof/Machine/Result.lean ====
section
/-! DEFINITION. The result of a unit, a function of its state (R210). -/

namespace Sys2Proof.Machine

open Sys2Proof

/-- The encoder's result (R210). -/
inductive EncResult
  /-- `Text(enc_out)`. -/
  | text (out : List Byte)
  /-- `Fault(enc_fault)`. -/
  | fault (code : EncFault)
  /-- No result yet. -/
  | unfinished
deriving DecidableEq, Repr

/-- The decoder's result (R210). -/
inductive DecResult
  /-- `Ok(dec_out)`. -/
  | ok (out : List Byte)
  /-- `InvalidSymbol(dec_info)`. -/
  | invalidSymbol (byte : Byte)
  /-- `InvalidPadding(dec_info)`. -/
  | invalidPadding (leftover : Byte)
  /-- `Fault(dec_fault)`. -/
  | fault (code : DecFault)
  /-- No result yet. -/
  | unfinished
deriving DecidableEq, Repr

/-- R210's function on the encoder. -/
def encResult (u : EncUnit) : EncResult :=
  if u.fault ≠ .noFault then .fault u.fault
  else match u.phase with
    | .done => .text u.out
    | .idle => .unfinished
    | .active => .unfinished

/-- R210's function on the decoder. -/
def decResult (u : DecUnit) : DecResult :=
  if u.fault ≠ .noFault then .fault u.fault
  else match u.phase with
    | .doneOk => .ok u.out
    | .doneErr =>
      match u.err with
      | .invalidSymbol => .invalidSymbol u.info
      | .invalidPadding => .invalidPadding u.info
      | .noError => .unfinished
    | .idle => .unfinished
    | .active => .unfinished

end Sys2Proof.Machine
end

