-- ==== Sys2Proof/Safety.lean ====
section
/-! DEFINITION. The terms statements use: the invariant of the states between two commands (R25 to
R28, R33 to R36), what an event is to a unit, and what a step leaves alone. -/

namespace Sys2Proof.Machine

open Sys2Proof

/-- The encoder between two commands: R24 to R28. The last two lines give the text's length mod 4,
which R102's table gives for the finished text. -/
structure EncUnit.Inv (cap : Nat) (u : EncUnit) : Prop where
  /-- R27: `enc_mod3` is 0, 1 or 2. -/
  mod3_lt : u.mod3.toNat < 3
  /-- R26, R27: `enc_pend` = 2 * `enc_mod3`. -/
  pend_eq : u.pend.toNat = 2 * u.mod3.toNat
  /-- R25: the bits below the pending ones are zero. -/
  acc_low : u.acc <<< u.pend.toNat = 0#16
  /-- R28: the capacity bounds the output. -/
  out_le : u.out.length ≤ cap
  /-- R28: alphabet closure. -/
  out_text : ∀ c ∈ u.out, isTextByte c = true
  /-- No command but INIT leaves IDLE without a fault, so nothing is emitted there. -/
  idle_empty : u.phase = .idle → u.out = [] ∧ u.mod3 = 0#2
  /-- While encoding, the text holds alphabet bytes only, `enc_mod3` of them mod 4 (R104). -/
  active_out : u.phase = .active → (∀ c ∈ u.out, isAlphabetByte c = true) ∧ u.out.length % 4 = u.mod3.toNat
  /-- A finished text has a length that is a multiple of 4 (R102), and the counters are cleared (R108). -/
  done_out : u.phase = .done → u.out.length % 4 = 0 ∧ u.mod3 = 0#2

/-- The decoder between two commands: R31 to R36. -/
structure DecUnit.Inv (cap : Nat) (u : DecUnit) : Prop where
  /-- R33: `dec_held` is 0, 2, 4 or 6. -/
  held_cases : u.held = 0#4 ∨ u.held = 2#4 ∨ u.held = 4#4 ∨ u.held = 6#4
  /-- Held and stale bits together lie in the top six bits (R45). -/
  acc_low : u.acc <<< 6 = 0#16
  /-- R34: the capacity bounds the output. -/
  out_le : u.out.length ≤ cap
  /-- R35: an error is recorded exactly in DONE_ERR. -/
  err_iff : u.err ≠ .noError ↔ u.phase = .doneErr
  /-- R36, no error: the payload is 0. -/
  info_none : u.err = .noError → u.info = 0x00#8
  /-- R36, INVALID_SYMBOL: the payload is a byte the validator rejects. -/
  info_symbol : u.err = .invalidSymbol → rev u.info = .invalid
  /-- R36, INVALID_PADDING: the payload is the held-bit count, 2, 4 or 6. -/
  info_padding : u.err = .invalidPadding → u.info = u.held.setWidth 8 ∧ u.held ≠ 0#4
  /-- R34: an error leaves no output. -/
  err_empty : u.phase = .doneErr → u.out = []
  /-- R31: DONE_OK means that no bit is held. -/
  ok_held : u.phase = .doneOk → u.held = 0#4
  /-- No command but INIT leaves IDLE without a fault. -/
  idle_empty : u.phase = .idle → u.out = [] ∧ u.acc = 0x0000#16 ∧ u.held = 0#4

/-- The machine between two commands, for capacities R7 admits. -/
structure State.Inv (s : State) : Prop where
  params_wf : s.params.wf = true
  enc_inv : s.enc.Inv s.params.encOutCap
  dec_inv : s.dec.Inv s.params.decOutCap

/-- The word an event puts on a unit's command port (R70). -/
def HostEvent.wordFor (unit : UnitId) : HostEvent → Option Word16
  | .command w => if unitOfWord w = unit then some w else none
  | .read _ => none
  | .reset => none
  | .commandWithReset w => if unitOfWord w = unit then some w else none

/-- The command words a list of events puts on a unit's port, in order (R58). -/
def wordsFor (unit : UnitId) (es : List HostEvent) : List Word16 := es.filterMap (HostEvent.wordFor unit)

/-- An event in which the reset input takes part (R230, R233). -/
def HostEvent.resets : HostEvent → Bool
  | .command _ => false
  | .read _ => false
  | .reset => true
  | .commandWithReset _ => true

/-- Nothing but the encoder unit differs: the frame of every encoder command (R20, R207). -/
def onlyEncChanged (s t : State) : Prop :=
  t.dec = s.dec ∧ t.params = s.params ∧ t.host = s.host ∧ t.answers = s.answers

/-- Nothing but the decoder unit differs: the frame of every decoder command (R20, R207). -/
def onlyDecChanged (s t : State) : Prop :=
  t.enc = s.enc ∧ t.params = s.params ∧ t.host = s.host ∧ t.answers = s.answers

/-- `s` with `es` issued before whatever the host has pending. -/
def State.withEvents (s : State) (es : List HostEvent) : State := { s with host := es ++ s.host }

end Sys2Proof.Machine
end

