-- ==== Sys2Proof/Certificates/Slice0/Obligations.lean ====
section
/-! DEFINITION. Statements for the provers, from the numbered rules of spec/. -/

open Sys2Proof Sys2Proof.Machine

/-! ### Encoding -/

/-- One word per row of the table, its bits written out from R73, decodes to the command it stands
for. -/
def Obligations.TableWordsDecodeToTheirCommands : Prop :=
  decode 0b0000000000000000#16 = .command .encInit
  ∧ decode 0b0000000101001101#16 = .command (.encByte 0x4D#8)
  ∧ decode 0b0000001000000000#16 = .command .encFinal
  ∧ decode 0b0000010000000000#16 = .command .decInit
  ∧ decode 0b0000010100111101#16 = .command (.decChar 0x3D#8)
  ∧ decode 0b0000011000000000#16 = .command .decFinal

/-- R73: a word spells a command exactly when its masked bits are the row's match, the operand is
`D` unchanged, and at most one row matches a word. -/
def Obligations.WordSpellsCommandIffRowMatches : Prop :=
  ∀ w : Word16,
    (decode w = .command .encInit ↔ w &&& 0xFFFF#16 = 0x0000#16)
    ∧ (∀ d : Byte, decode w = .command (.encByte d) ↔
        w &&& 0xFF00#16 = 0x0100#16 ∧ d = w.extractLsb' 0 8)
    ∧ (decode w = .command .encFinal ↔ w &&& 0xFFFF#16 = 0x0200#16)
    ∧ (decode w = .command .decInit ↔ w &&& 0xFFFF#16 = 0x0400#16)
    ∧ (∀ c : Byte, decode w = .command (.decChar c) ↔
        w &&& 0xFF00#16 = 0x0500#16 ∧ c = w.extractLsb' 0 8)
    ∧ (decode w = .command .decFinal ↔ w &&& 0xFFFF#16 = 0x0600#16)
    ∧ ([(0x0000#16, 0xFFFF#16), (0x0100#16, 0xFF00#16), (0x0200#16, 0xFFFF#16),
        (0x0400#16, 0xFFFF#16), (0x0500#16, 0xFF00#16), (0x0600#16, 0xFFFF#16)].filter
          (fun r : Word16 × Word16 => w &&& r.2 == r.1)).length ≤ 1

/-- Decoding a command's encoding gives the command back, at every operand, and the encoding's fields
pass the format's check (R70, R73). -/
def Obligations.DecodeOfEncodeIsTheCommand : Prop :=
  ∀ i : Instr, (FormatC.ofWord (encode i)).wf = true ∧ decode (encode i) = .command i

/-- The other direction: a word that decodes to a command is that command's encoding, so no command
has a second word (R73, R77). -/
def Obligations.EncodeOfDecodeIsTheWord : Prop :=
  ∀ (w : Word16) (i : Instr), decode w = .command i → encode i = w

/-- R74's decoder, field by field, and where an illegal word goes. -/
def Obligations.DecodingFollowsTheFields : Prop :=
  ∀ w : Word16, ∀ unit : UnitId, (unit = .dec ↔ w.getLsbD 10 = true) →
    (w.toNat / 2048 ≠ 0 → ∃ why, decode w = .illegal unit why)
    ∧ (w.toNat / 2048 = 0 →
        (w.toNat / 256 % 4 = 0 →
          (w.toNat % 256 = 0 → decode w = .command (match unit with | .enc => .encInit | .dec => .decInit))
          ∧ (w.toNat % 256 ≠ 0 → ∃ why, decode w = .illegal unit why))
        ∧ (w.toNat / 256 % 4 = 1 →
          decode w = .command (match unit with
            | .enc => .encByte (BitVec.ofNat 8 w.toNat)
            | .dec => .decChar (BitVec.ofNat 8 w.toNat)))
        ∧ (w.toNat / 256 % 4 = 2 →
          (w.toNat % 256 = 0 → decode w = .command (match unit with | .enc => .encFinal | .dec => .decFinal))
          ∧ (w.toNat % 256 ≠ 0 → ∃ why, decode w = .illegal unit why))
        ∧ (w.toNat / 256 % 4 = 3 → ∃ why, decode w = .illegal unit why))
    ∧ (∀ (s : State) (why : IllegalReason), decode w = .illegal unit why →
        (unit = .enc → s.enc.fault = .noFault →
          step { s with host := .command w :: s.host } =
            .next { s with enc := { s.enc with fault := .illegalCommand } })
        ∧ (unit = .dec → s.dec.fault = .noFault →
          step { s with host := .command w :: s.host } =
            .next { s with dec := { s.dec with fault := .illegalCommand } }))

/-- R75: the illegal words are exactly its three classes, each raises ILLEGAL_COMMAND in the unit bit
10 selects, and 516 words of 65536 spell a command (256 high bytes times 256 low bytes). -/
def Obligations.IllegalWordsAreTheThreeClasses : Prop :=
  (∀ w : Word16,
    (∃ unit why, decode w = .illegal unit why) ↔
      (0x0800 ≤ w.toNat)
      ∨ (0x0300 ≤ w.toNat ∧ w.toNat ≤ 0x03FF) ∨ (0x0700 ≤ w.toNat ∧ w.toNat ≤ 0x07FF)
      ∨ (0x0001 ≤ w.toNat ∧ w.toNat ≤ 0x00FF) ∨ (0x0201 ≤ w.toNat ∧ w.toNat ≤ 0x02FF)
      ∨ (0x0401 ≤ w.toNat ∧ w.toNat ≤ 0x04FF) ∨ (0x0601 ≤ w.toNat ∧ w.toNat ≤ 0x06FF))
  ∧ (∀ (s : State) (w : Word16) (unit : UnitId) (why : IllegalReason), decode w = .illegal unit why →
      s.enc.fault = .noFault → s.dec.fault = .noFault →
      ∃ t, step { s with host := .command w :: s.host } = .next t
        ∧ (w.getLsbD 10 = false → t.enc.fault = .illegalCommand ∧ t.dec = s.dec)
        ∧ (w.getLsbD 10 = true → t.dec.fault = .illegalCommand ∧ t.enc = s.enc))
  ∧ (((List.range 256).map fun hi => ((List.range 256).filter fun lo =>
        (decodeTableWord 16 (hi * 256 + lo)).isSome).length).sum = 516)

/-! ### Serving the host -/

/-- A step whose oldest event is a word that decodes to a command is `exec` of that command, on the
state with the event taken off; so is the first step of a command that arrives with a reset (served
in two steps by the model's choice, log entry 9). -/
def Obligations.StepRunsTheDecodedCommand : Prop :=
  ∀ (s : State) (w : Word16) (i : Instr), decode w = .command i →
    step { s with host := .command w :: s.host } = exec i s
    ∧ step { s with host := .commandWithReset w :: s.host } = exec i { s with host := .reset :: s.host }

/-- R58: events are served one at a time in issue order, an event issued later waits and has no
effect on the ones before it, and a read's answer is computed from the state every earlier command
has left. -/
def Obligations.EventsAreServedInIssueOrder : Prop :=
  (∀ (s t : State) (e f : HostEvent), step { s with host := e :: s.host } = .next t →
    step { s with host := e :: (s.host ++ [f]) } = .next { t with host := t.host ++ [f] })
  ∧ (∀ (s t u : State) (w : Word16) (addr : Word32),
      step { s with host := .command w :: .read addr :: s.host } = .next t → step t = .next u →
      t.host = .read addr :: s.host ∧ u = { t with host := s.host, answers := s.answers ++ [(addr, portRead t addr)] })

/-- With no event pending a step changes nothing. That a step can find nothing to serve is the
model's own choice (log entry 1); that the state then survives is R218's sentence. -/
def Obligations.IdleStepKeepsTheState : Prop :=
  ∀ s : State, s.host = [] → step s = .next s

/-- R56: reads change no unit. However many stand in a row, at whatever addresses, each is answered
from the same state, so two reads of one address with no command between them return one value. -/
def Obligations.ReadsHaveNoSideEffects : Prop :=
  ∀ (s : State) (addrs : List Word32),
    core.run addrs.length (s.withEvents (addrs.map .read))
      = .next { s with answers := s.answers ++ addrs.map fun a => (a, portRead s a) }

/-- R238, R236: every pending event is served. `n` steps suffice for `n` events, plus one for each
reset that arrives together with a command, which the model serves in two steps by its own choice (log
entry 9); the machine never stops. -/
def Obligations.EveryPendingEventIsServed : Prop :=
  ∀ s : State, ∃ t, core.run (s.host.map (fun e => match e with
      | .command _ => 1
      | .read _ => 1
      | .reset => 1
      | .commandWithReset _ => 2)).sum s = .next t
    ∧ t.host = [] ∧ t.params = s.params

/-! ### Reset -/

/-- R230: reset sets every element to its reset value; every address of the read port then reads 0;
and no event in which reset takes no part clears a fault. What reset leaves of the model's own fields is
`ResetLeavesTheHostsSide`. -/
def Obligations.ResetSetsEveryElement : Prop :=
  (∀ s : State, ∃ t, step { s with host := .reset :: s.host } = .next t
    ∧ t.enc = { phase := .idle, acc := 0x0000#16, pend := 0#4, mod3 := 0#2, out := [], fault := .noFault }
    ∧ t.dec = { phase := .idle, acc := 0x0000#16, held := 0#4, out := [], err := .noError, info := 0x00#8,
                fault := .noFault })
  ∧ (∀ (s t : State) (addr : Word32), step { s with host := .reset :: s.host } = .next t → portRead t addr = 0#32)
  ∧ (∀ (s t : State) (e : HostEvent), e.resets = false → step { s with host := e :: s.host } = .next t →
      (s.enc.fault ≠ .noFault → t.enc.fault = s.enc.fault)
      ∧ (s.dec.fault ≠ .noFault → t.dec.fault = s.dec.fault))

/-- What stands beside the units when reset takes part, all of it the model's choice. A reset leaves the
capacities (log entry 2), the pending events (log entry 1) and the answers already given (log entry 3).
When it arrives together with a command it is served in a step of its own (log entry 9), so the
command's step before it keeps a standing fault. -/
def Obligations.ResetLeavesTheHostsSide : Prop :=
  (∀ s t : State, step { s with host := .reset :: s.host } = .next t →
    t.params = s.params ∧ t.host = s.host ∧ t.answers = s.answers)
  ∧ (∀ (s t : State) (w : Word16), step { s with host := .commandWithReset w :: s.host } = .next t →
      (s.enc.fault ≠ .noFault → t.enc.fault = s.enc.fault)
      ∧ (s.dec.fault ≠ .noFault → t.dec.fault = s.dec.fault))

/-- R231: from reset, whatever the capacities, both units are IDLE and the two INIT words are the only
words served without a fault. -/
def Obligations.AfterResetOnlyInitIsFaultless : Prop :=
  ∀ (p : Params) (w : Word16),
    (State.resetWith p).enc.phase = .idle ∧ (State.resetWith p).dec.phase = .idle
    ∧ ∃ t, step ((State.resetWith p).withEvents [.command w]) = .next t
      ∧ ((t.enc.fault = .noFault ∧ t.dec.fault = .noFault) ↔ (w = 0x0000#16 ∨ w = 0x0400#16))

/-- Reset arriving together with a command (R233, R234): the command is served first and the reset is
the very next event, so both units end at their reset values. That this is one host event served in
two steps is the model's choice (log entry 9); the order and the end state are R233's. -/
def Obligations.ResetArrivingWithACommandWins : Prop :=
  ∀ (s : State) (w : Word16),
    ∃ t, step { s with host := .commandWithReset w :: s.host } = .next { t with host := .reset :: s.host }
      ∧ step { s with host := .command w :: s.host } = .next t
      ∧ step { t with host := .reset :: s.host } = .next { s with enc := EncUnit.reset, dec := DecUnit.reset }

/-! ### Independence of the units -/

/-- R20: a command of one unit neither writes nor reads the other unit's state. -/
def Obligations.UnitsAreIndependent : Prop :=
  ∀ (s t : State) (w : Word16), step { s with host := .command w :: s.host } = .next t →
    (unitOfWord w = .enc → onlyEncChanged s t
      ∧ ∀ other : DecUnit, step { s with dec := other, host := .command w :: s.host } = .next { t with dec := other })
    ∧ (unitOfWord w = .dec → onlyDecChanged s t
      ∧ ∀ other : EncUnit, step { s with enc := other, host := .command w :: s.host } = .next { t with enc := other })

/-- R59: in any interleaving of commands (and reads), each unit ends as if its own words ran alone. -/
def Obligations.InterleavingsLeaveEachUnitAsAlone : Prop :=
  ∀ (s : State) (es : List HostEvent), (∀ e ∈ es, e.resets = false) →
    ∃ t te td,
      core.run es.length (s.withEvents es) = .next t
      ∧ core.run (wordsFor .enc es).length (s.withEvents ((wordsFor .enc es).map .command)) = .next te
      ∧ core.run (wordsFor .dec es).length (s.withEvents ((wordsFor .dec es).map .command)) = .next td
      ∧ t.enc = te.enc ∧ t.dec = td.dec ∧ te.dec = s.dec ∧ td.enc = s.enc

/-! ### Faults -/

/-- R204, the encoder's faults, and the decoder's: exactly the conditions listed. -/
def Obligations.FaultsAreRaisedExactlyAsListed : Prop :=
  ∀ (s t : State) (w : Word16), step { s with host := .command w :: s.host } = .next t →
    (unitOfWord w = .enc → s.enc.fault = .noFault →
      (t.enc.fault = .illegalCommand ↔ ∃ why, decode w = .illegal .enc why)
      ∧ (t.enc.fault = .sequenceError ↔
          ((∃ d, decode w = .command (.encByte d)) ∨ decode w = .command .encFinal)
            ∧ (s.enc.phase = .idle ∨ s.enc.phase = .done))
      ∧ (t.enc.fault = .outputOverflow ↔ s.enc.phase = .active ∧
          (((∃ d, decode w = .command (.encByte d))
              ∧ s.enc.out.length + (s.enc.pend.toNat + 8) / 6 > s.params.encOutCap)
            ∨ (decode w = .command .encFinal
              ∧ s.enc.out.length + (if s.enc.pend.toNat > 0 then 1 else 0) + (3 - s.enc.mod3.toNat) % 3
                > s.params.encOutCap))))
    ∧ (unitOfWord w = .dec → s.dec.fault = .noFault →
      (t.dec.fault = .illegalCommand ↔ ∃ why, decode w = .illegal .dec why)
      ∧ (t.dec.fault = .sequenceError ↔
          ((∃ c, decode w = .command (.decChar c)) ∨ decode w = .command .decFinal)
            ∧ (s.dec.phase = .idle ∨ s.dec.phase = .doneOk))
      ∧ (s.dec.out.length ≤ s.params.decOutCap →
          (t.dec.fault = .outputOverflow ↔ s.dec.phase = .active ∧
            ∃ c v, decode w = .command (.decChar c) ∧ rev c = .idx v ∧ s.dec.held.toNat + 6 ≥ 8
              ∧ s.dec.out.length = s.params.decOutCap))
      ∧ (t.dec.fault = .padUnderflow ↔ s.dec.phase = .active ∧
          ∃ c, decode w = .command (.decChar c) ∧ rev c = .pad ∧ s.dec.held.toNat < 2))

/-- R205: a command that faults writes the fault field and nothing else; a faulted unit ignores every
word; an event in which reset takes no part clears no fault; the other unit is untouched. -/
def Obligations.FaultsAreAtomicAndSticky : Prop :=
  (∀ (s t : State) (w : Word16), step { s with host := .command w :: s.host } = .next t →
    (s.enc.fault = .noFault → t.enc.fault ≠ .noFault →
      ∃ f, t = { s with enc := { s.enc with fault := f } })
    ∧ (s.dec.fault = .noFault → t.dec.fault ≠ .noFault →
      ∃ f, t = { s with dec := { s.dec with fault := f } }))
  ∧ (∀ (s : State) (ws : List Word16),
      (∀ w ∈ ws, (unitOfWord w = .enc ∧ s.enc.fault ≠ .noFault) ∨ (unitOfWord w = .dec ∧ s.dec.fault ≠ .noFault)) →
      core.run ws.length (s.withEvents (ws.map .command)) = .next s)
  ∧ (∀ (s t : State) (e : HostEvent), e.resets = false → step { s with host := e :: s.host } = .next t →
      (s.enc.fault ≠ .noFault → t.enc.fault = s.enc.fault)
      ∧ (s.dec.fault ≠ .noFault → t.dec.fault = s.dec.fault))

/-- R206: the order of the checks on one command, and that one command reports at most one error or
fault. -/
def Obligations.ChecksAreMadeInOrder : Prop :=
  ∀ (s t : State) (w : Word16), step { s with host := .command w :: s.host } = .next t →
    ((unitOfWord w = .enc ∧ s.enc.fault ≠ .noFault) ∨ (unitOfWord w = .dec ∧ s.dec.fault ≠ .noFault) → t = s)
    ∧ (∀ why, decode w = .illegal .enc why → s.enc.fault = .noFault → t = { s with enc := { s.enc with fault := .illegalCommand } })
    ∧ (∀ why, decode w = .illegal .dec why → s.dec.fault = .noFault → t = { s with dec := { s.dec with fault := .illegalCommand } })
    ∧ (((∃ c, decode w = .command (.decChar c)) ∨ decode w = .command .decFinal) → s.dec.fault = .noFault →
        s.dec.phase = .doneErr → t = s)
    ∧ (((∃ d, decode w = .command (.encByte d)) ∨ decode w = .command .encFinal) → s.enc.fault = .noFault →
        s.enc.phase ≠ .active → t = { s with enc := { s.enc with fault := .sequenceError } })
    ∧ (((∃ c, decode w = .command (.decChar c)) ∨ decode w = .command .decFinal) → s.dec.fault = .noFault →
        s.dec.phase = .idle ∨ s.dec.phase = .doneOk → t = { s with dec := { s.dec with fault := .sequenceError } })
    ∧ (∀ c, decode w = .command (.decChar c) → s.dec.fault = .noFault → s.dec.phase = .active →
        (rev c = .invalid → t.dec.fault = .noFault ∧ t.dec.err = .invalidSymbol ∧ t.dec.info = c)
        ∧ (rev c = .pad → t.dec.err = s.dec.err ∧ (t.dec.fault = .noFault ∨ t.dec.fault = .padUnderflow))
        ∧ (∀ v, rev c = .idx v → t.dec.err = s.dec.err ∧ (t.dec.fault = .noFault ∨ t.dec.fault = .outputOverflow)))
    ∧ (((∃ d, decode w = .command (.encByte d)) ∨ decode w = .command .encFinal) → s.enc.fault = .noFault →
        s.enc.phase = .active → t.enc.fault = .noFault ∨ t.enc.fault = .outputOverflow)
    ∧ ¬ (s.dec.fault = .noFault ∧ t.dec.fault ≠ .noFault ∧ s.dec.err ≠ t.dec.err)

/-- R200: when each architected error is raised in a decoder that has none, and what it records. -/
def Obligations.ArchitectedErrorsAreRaisedAsListed : Prop :=
  ∀ (s t : State) (w : Word16), step { s with host := .command w :: s.host } = .next t →
    s.dec.fault = .noFault → s.dec.err = .noError →
    (t.dec.err = .invalidSymbol ↔
        s.dec.phase = .active ∧ ∃ c, decode w = .command (.decChar c) ∧ rev c = .invalid)
    ∧ (t.dec.err = .invalidPadding ↔
        s.dec.phase = .active ∧ decode w = .command .decFinal ∧ s.dec.held ≠ 0#4)
    ∧ (∀ c, decode w = .command (.decChar c) → t.dec.err = .invalidSymbol → t.dec.info = c)
    ∧ (t.dec.err = .invalidPadding → t.dec.info = s.dec.held.setWidth 8
        ∧ (s.dec.Inv s.params.decOutCap → t.dec.info = 2#8 ∨ t.dec.info = 4#8 ∨ t.dec.info = 6#8))
    ∧ (t.dec.err ≠ .noError → t.dec.phase = .doneErr ∧ t.dec.out = []
        ∧ t.dec.acc = s.dec.acc ∧ t.dec.held = s.dec.held ∧ t.dec.fault = .noFault)

/-- R201, R209: once an error stands, no number of further characters and FINALs changes anything, and
DEC_INIT starts a new decode. -/
def Obligations.AnErrorStandsUntilInit : Prop :=
  ∀ (s : State), s.dec.fault = .noFault → s.dec.phase = .doneErr →
    (∀ is : List Instr, (∀ i ∈ is, i = .decFinal ∨ ∃ c, i = .decChar c) →
      core.run is.length (s.withEvents ((is.map encode).map .command)) = .next s)
    ∧ exec .decInit s = .next { s with dec := { DecUnit.reset with phase := .active } }

/-! ### The encoder's commands -/

/-- R106: ENC_INIT from every phase, its whole effect, and that a faulted unit ignores it. -/
def Obligations.EncInitFollowsItsRule : Prop :=
  ∀ s : State,
    encode .encInit = 0x0000#16
    ∧ (s.enc.fault = .noFault → exec .encInit s = .next
      { s with enc := { phase := .active, acc := 0x0000#16, pend := 0#4, mod3 := 0#2, out := [], fault := .noFault } })
    ∧ (s.enc.fault ≠ .noFault → exec .encInit s = .next s)
    ∧ (∀ w : Word16, 0x0001 ≤ w.toNat → w.toNat ≤ 0x00FF → s.enc.fault = .noFault →
        step { s with host := .command w :: s.host } =
          .next { s with enc := { s.enc with fault := .illegalCommand } })

/-- R107: ENC_BYTE at each at-rest count, with its two faults; the symbols are given as the groups the
pending bits and the byte form. -/
def Obligations.EncByteFollowsItsRule : Prop :=
  ∀ (d : Byte) (s : State), s.enc.Inv s.params.encOutCap →
    encode (.encByte d) = 0x0100#16 ||| d.setWidth 16
    ∧ (s.enc.fault ≠ .noFault → exec (.encByte d) s = .next s)
    ∧ (s.enc.fault = .noFault → s.enc.phase ≠ .active →
        exec (.encByte d) s = .next { s with enc := { s.enc with fault := .sequenceError } })
    ∧ (s.enc.fault = .noFault → s.enc.phase = .active →
        s.params.encOutCap < s.enc.out.length + (s.enc.pend.toNat + 8) / 6 →
        exec (.encByte d) s = .next { s with enc := { s.enc with fault := .outputOverflow } })
    ∧ (s.enc.fault = .noFault → s.enc.phase = .active → s.enc.pend = 0#4 →
        s.enc.out.length + 1 ≤ s.params.encOutCap →
        exec (.encByte d) s = .next { s with enc := { s.enc with
          acc := d.extractLsb' 0 2 ++ 0#14, pend := 2#4, mod3 := 1#2,
          out := s.enc.out ++ [alpha (d.extractLsb' 2 6)] } })
    ∧ (s.enc.fault = .noFault → s.enc.phase = .active → s.enc.pend = 2#4 →
        s.enc.out.length + 1 ≤ s.params.encOutCap →
        exec (.encByte d) s = .next { s with enc := { s.enc with
          acc := d.extractLsb' 0 4 ++ 0#12, pend := 4#4, mod3 := 2#2,
          out := s.enc.out ++ [alpha (s.enc.acc.extractLsb' 14 2 ++ d.extractLsb' 4 4)] } })
    ∧ (s.enc.fault = .noFault → s.enc.phase = .active → s.enc.pend = 4#4 →
        s.enc.out.length + 2 ≤ s.params.encOutCap →
        exec (.encByte d) s = .next { s with enc := { s.enc with
          acc := 0x0000#16, pend := 0#4, mod3 := 0#2,
          out := s.enc.out ++ [alpha (s.enc.acc.extractLsb' 12 4 ++ d.extractLsb' 6 2), alpha (d.extractLsb' 0 6)] } })

/-- R108: ENC_FINAL by `enc_mod3`, with its two faults; a partial group is the pending bits and zero
fill. -/
def Obligations.EncFinalFollowsItsRule : Prop :=
  ∀ s : State, s.enc.Inv s.params.encOutCap →
    encode .encFinal = 0x0200#16
    ∧ (s.enc.fault ≠ .noFault → exec .encFinal s = .next s)
    ∧ (s.enc.fault = .noFault → s.enc.phase ≠ .active →
        exec .encFinal s = .next { s with enc := { s.enc with fault := .sequenceError } })
    ∧ (s.enc.fault = .noFault → s.enc.phase = .active →
        s.params.encOutCap < s.enc.out.length + (if s.enc.mod3 = 0#2 then 0 else if s.enc.mod3 = 1#2 then 3 else 2) →
        exec .encFinal s = .next { s with enc := { s.enc with fault := .outputOverflow } })
    ∧ (s.enc.fault = .noFault → s.enc.phase = .active → s.enc.mod3 = 0#2 →
        exec .encFinal s = .next { s with enc :=
          { phase := .done, acc := 0x0000#16, pend := 0#4, mod3 := 0#2, out := s.enc.out, fault := .noFault } })
    ∧ (s.enc.fault = .noFault → s.enc.phase = .active → s.enc.mod3 = 1#2 →
        s.enc.out.length + 3 ≤ s.params.encOutCap →
        exec .encFinal s = .next { s with enc :=
          { phase := .done, acc := 0x0000#16, pend := 0#4, mod3 := 0#2, fault := .noFault,
            out := s.enc.out ++ [alpha (s.enc.acc.extractLsb' 14 2 ++ 0#4), 0x3D#8, 0x3D#8] } })
    ∧ (s.enc.fault = .noFault → s.enc.phase = .active → s.enc.mod3 = 2#2 →
        s.enc.out.length + 2 ≤ s.params.encOutCap →
        exec .encFinal s = .next { s with enc :=
          { phase := .done, acc := 0x0000#16, pend := 0#4, mod3 := 0#2, fault := .noFault,
            out := s.enc.out ++ [alpha (s.enc.acc.extractLsb' 12 4 ++ 0#2), 0x3D#8] } })

/-- R100: the alphabet in its order, one to one, without the padding byte. -/
def Obligations.AlphabetIsTheFixedOrder : Prop :=
  (List.range 64).map (fun i => alpha (BitVec.ofNat 6 i)) =
    ("ABCDEFGHIJKLMNOPQRSTUVWXYZabcdefghijklmnopqrstuvwxyz0123456789+/".toList.map
      fun c => BitVec.ofNat 8 c.toNat)
  ∧ (∀ i j : Sextet, alpha i = alpha j → i = j)
  ∧ (∀ i : Sextet, alpha i ≠ 0x3D#8)

/-- R109: in any interleaving whose encoder words are R109's sequence, the encoder ends DONE with
`ENCODE(b)`, from any state whose encoder is not faulted. -/
def Obligations.EncoderCommandsComputeEncode : Prop :=
  ∀ (s : State) (es : List HostEvent) (b : List Byte), s.enc.fault = .noFault →
    (∀ e ∈ es, e.resets = false) → wordsFor .enc es = encodeWords b →
    encodedLength b.length ≤ s.params.encOutCap →
    ∃ t, core.run es.length (s.withEvents es) = .next t
      ∧ t.enc = { phase := .done, acc := 0x0000#16, pend := 0#4, mod3 := 0#2, out := encodeText b, fault := .noFault }
      ∧ t.host = s.host

/-- R110: at every point of R109's sequence the output is what ENCODE's text starts with. -/
def Obligations.PartialEncodeIsAPrefixOfTheText : Prop :=
  ∀ (s : State) (es : List HostEvent) (b : List Byte) (k : Nat), s.enc.fault = .noFault →
    (∀ e ∈ es, e.resets = false) → wordsFor .enc es = (encodeWords b).take (k + 1) →
    encodedLength b.length ≤ s.params.encOutCap →
    ∃ t, core.run es.length (s.withEvents es) = .next t ∧ t.enc.fault = .noFault
      ∧ t.enc.out <+: encodeText b

/-- R111: with a smaller capacity the sequence ends in OUTPUT_OVERFLOW, with no more text than the
buffer holds, all of it a beginning of ENCODE's. -/
def Obligations.TooSmallACapacityOverflows : Prop :=
  ∀ (s : State) (es : List HostEvent) (b : List Byte), s.enc.fault = .noFault →
    (∀ e ∈ es, e.resets = false) → wordsFor .enc es = encodeWords b →
    s.params.encOutCap < encodedLength b.length →
    ∃ t, core.run es.length (s.withEvents es) = .next t ∧ t.enc.fault = .outputOverflow
      ∧ t.enc.out.length ≤ s.params.encOutCap ∧ t.enc.out <+: encodeText b

/-- R102: the length of `ENCODE(b)` and of its two parts. -/
def Obligations.EncodedTextLength : Prop :=
  ∀ b : List Byte,
    (encodeText b).length = 4 * ((b.length + 2) / 3)
    ∧ (encodeText b = [] ↔ b = [])
    ∧ (b.length % 3 = 0 → 3 * dataSymbols b.length = 4 * b.length ∧ padSymbols b.length = 0
        ∧ 3 * (encodeText b).length = 4 * b.length)
    ∧ (b.length % 3 = 1 → 3 * dataSymbols b.length = 4 * b.length + 2 ∧ padSymbols b.length = 2
        ∧ 3 * (encodeText b).length = 4 * b.length + 8)
    ∧ (b.length % 3 = 2 → 3 * dataSymbols b.length = 4 * b.length + 1 ∧ padSymbols b.length = 1
        ∧ 3 * (encodeText b).length = 4 * b.length + 4)

/-! ### The decoder's commands -/

/-- R130: the validator's ranges, its counts, and that it inverts the alphabet. -/
def Obligations.ValidatorClassifiesEveryByte : Prop :=
  (∀ c : Byte,
    (0x41 ≤ c.toNat → c.toNat ≤ 0x5A → rev c = .idx (BitVec.ofNat 6 (c.toNat - 0x41)))
    ∧ (0x61 ≤ c.toNat → c.toNat ≤ 0x7A → rev c = .idx (BitVec.ofNat 6 (c.toNat - 0x47)))
    ∧ (0x30 ≤ c.toNat → c.toNat ≤ 0x39 → rev c = .idx (BitVec.ofNat 6 (c.toNat + 0x04)))
    ∧ (c.toNat = 0x2B → rev c = .idx 62#6) ∧ (c.toNat = 0x2F → rev c = .idx 63#6)
    ∧ (c.toNat = 0x3D → rev c = .pad)
    ∧ (c.toNat ≤ 0x2A ∨ (0x2C ≤ c.toNat ∧ c.toNat ≤ 0x2E) ∨ (0x3A ≤ c.toNat ∧ c.toNat ≤ 0x3C)
        ∨ (0x3E ≤ c.toNat ∧ c.toNat ≤ 0x40) ∨ (0x5B ≤ c.toNat ∧ c.toNat ≤ 0x60) ∨ 0x7B ≤ c.toNat →
        rev c = .invalid))
  ∧ (∀ i : Sextet, rev (alpha i) = .idx i)
  ∧ ((List.range 256).filter fun n => isAlphabetByte (BitVec.ofNat 8 n)).length = 64
  ∧ ((List.range 256).filter fun n => rev (BitVec.ofNat 8 n) == .pad).length = 1
  ∧ ((List.range 256).filter fun n => rev (BitVec.ofNat 8 n) == .invalid).length = 191

/-- R133: DEC_INIT from every phase, its whole effect, and that a faulted unit ignores it. -/
def Obligations.DecInitFollowsItsRule : Prop :=
  ∀ s : State,
    encode .decInit = 0x0400#16
    ∧ (s.dec.fault = .noFault → exec .decInit s = .next
      { s with dec := { phase := .active, acc := 0x0000#16, held := 0#4, out := [], err := .noError, info := 0x00#8,
                        fault := .noFault } })
    ∧ (s.dec.fault ≠ .noFault → exec .decInit s = .next s)
    ∧ (∀ w : Word16, 0x0401 ≤ w.toNat → w.toNat ≤ 0x04FF → s.dec.fault = .noFault →
        step { s with host := .command w :: s.host } =
          .next { s with dec := { s.dec with fault := .illegalCommand } })

/-- R137 with R134, R135, R136: DEC_CHAR's every case, between two commands. -/
def Obligations.DecCharFollowsItsRule : Prop :=
  ∀ (c : Byte) (s : State), s.dec.Inv s.params.decOutCap →
    encode (.decChar c) = 0x0500#16 ||| c.setWidth 16
    ∧ (s.dec.fault ≠ .noFault → exec (.decChar c) s = .next s)
    ∧ (s.dec.fault = .noFault → s.dec.phase = .doneErr → exec (.decChar c) s = .next s)
    ∧ (s.dec.fault = .noFault → s.dec.phase = .idle ∨ s.dec.phase = .doneOk →
        exec (.decChar c) s = .next { s with dec := { s.dec with fault := .sequenceError } })
    ∧ (s.dec.fault = .noFault → s.dec.phase = .active → rev c = .invalid →
        exec (.decChar c) s = .next { s with dec := { s.dec with
          err := .invalidSymbol, info := c, out := [], phase := .doneErr } })
    ∧ (s.dec.fault = .noFault → s.dec.phase = .active → rev c = .pad → s.dec.held.toNat < 2 →
        exec (.decChar c) s = .next { s with dec := { s.dec with fault := .padUnderflow } })
    ∧ (s.dec.fault = .noFault → s.dec.phase = .active → rev c = .pad → 2 ≤ s.dec.held.toNat →
        exec (.decChar c) s = .next { s with dec := { s.dec with held := BitVec.ofNat 4 (s.dec.held.toNat - 2) } })
    ∧ (∀ v : Sextet, rev c = .idx v → s.dec.fault = .noFault → s.dec.phase = .active →
        (s.dec.held = 0#4 → exec (.decChar c) s = .next { s with dec := { s.dec with
            acc := s.dec.acc ||| (v ++ 0#10), held := 6#4 } })
        ∧ (s.dec.held ≠ 0#4 → s.dec.out.length = s.params.decOutCap →
            exec (.decChar c) s = .next { s with dec := { s.dec with fault := .outputOverflow } })
        ∧ (s.dec.held = 2#4 → s.dec.out.length < s.params.decOutCap →
            exec (.decChar c) s = .next { s with dec := { s.dec with
              acc := 0x0000#16, held := 0#4,
              out := s.dec.out ++ [s.dec.acc.extractLsb' 8 8 ||| (0#2 ++ v)] } })
        ∧ (s.dec.held = 4#4 → s.dec.out.length < s.params.decOutCap →
            exec (.decChar c) s = .next { s with dec := { s.dec with
              acc := v.extractLsb' 0 2 ++ 0#14, held := 2#4,
              out := s.dec.out ++ [s.dec.acc.extractLsb' 8 8 ||| (0#4 ++ v.extractLsb' 2 4)] } })
        ∧ (s.dec.held = 6#4 → s.dec.out.length < s.params.decOutCap →
            exec (.decChar c) s = .next { s with dec := { s.dec with
              acc := v.extractLsb' 0 4 ++ 0#12, held := 4#4,
              out := s.dec.out ++ [s.dec.acc.extractLsb' 8 8 ||| (0#6 ++ v.extractLsb' 4 2)] } }))

/-- R138: DEC_FINAL's every case. -/
def Obligations.DecFinalFollowsItsRule : Prop :=
  ∀ s : State,
    encode .decFinal = 0x0600#16
    ∧ (s.dec.fault ≠ .noFault → exec .decFinal s = .next s)
    ∧ (s.dec.fault = .noFault → s.dec.phase = .doneErr → exec .decFinal s = .next s)
    ∧ (s.dec.fault = .noFault → s.dec.phase = .idle ∨ s.dec.phase = .doneOk →
        exec .decFinal s = .next { s with dec := { s.dec with fault := .sequenceError } })
    ∧ (s.dec.fault = .noFault → s.dec.phase = .active → s.dec.held ≠ 0#4 →
        exec .decFinal s = .next { s with dec := { s.dec with
          err := .invalidPadding, info := 0#4 ++ s.dec.held, out := [], phase := .doneErr } })
    ∧ (s.dec.fault = .noFault → s.dec.phase = .active → s.dec.held = 0#4 →
        exec .decFinal s = .next { s with dec := { s.dec with phase := .doneOk } })

/-- In any interleaving whose decoder words are R139's sequence, the decoder ends with the outcome of
`DECODE(t)`, from any state whose decoder is not faulted. Which capacities suffice is counted by
`bytesNeeded`, the model's reading of R139's 'does not need more' (log entry 13, DEDUCED). -/
def Obligations.DecoderCommandsComputeDecode : Prop :=
  ∀ (s : State) (es : List HostEvent) (text : List Byte), s.dec.fault = .noFault →
    (∀ e ∈ es, e.resets = false) → wordsFor .dec es = decodeWords text →
    bytesNeeded text ≤ s.params.decOutCap →
    ∃ t, core.run es.length (s.withEvents es) = .next t ∧ t.host = s.host
      ∧ (∀ out, decodeText text = .ok out →
          t.dec.fault = .noFault ∧ t.dec.phase = .doneOk ∧ t.dec.err = .noError ∧ t.dec.out = out)
      ∧ (∀ c, decodeText text = .invalidSymbol c →
          t.dec.fault = .noFault ∧ t.dec.phase = .doneErr ∧ t.dec.err = .invalidSymbol ∧ t.dec.info = c ∧ t.dec.out = [])
      ∧ (∀ n, decodeText text = .invalidPadding n →
          t.dec.fault = .noFault ∧ t.dec.phase = .doneErr ∧ t.dec.err = .invalidPadding ∧ t.dec.info.toNat = n ∧ t.dec.out = [])
      ∧ (decodeText text = .padUnderflow → t.dec.fault = .padUnderflow)

/-- R132: what an InvalidSymbol and an InvalidPadding carry, and the empty text. -/
def Obligations.DecodeOutcomesCarryTheirPayload : Prop :=
  decodeText [] = .ok []
  ∧ (∀ (t : List Byte) (c : Byte), decodeText t = .invalidSymbol c →
      ∃ before after, t = before ++ c :: after ∧ rev c = .invalid ∧ ∀ x ∈ before, rev x ≠ .invalid)
  ∧ (∀ (t : List Byte) (n : Nat), decodeText t = .invalidPadding n → n = 2 ∨ n = 4 ∨ n = 6)

/-- How many bytes an accepted text gives, and how large a buffer m characters need at most (R145).
The need is counted by `bytesNeeded`, the model's reading (log entry 13, DEDUCED). -/
def Obligations.DecodedLengthCountsTheBits : Prop :=
  (∀ (t out : List Byte), decodeText t = .ok out →
    8 * out.length + 2 * (t.filter (fun c => rev c == .pad)).length
      = 6 * (t.filter (fun c => isAlphabetByte c)).length)
  ∧ (∀ t : List Byte, bytesNeeded t ≤ 6 * t.length / 8)

/-- R142 (and R141): for every three symbols, padding in the middle leaves its two dropped bits in the
accumulator, and they are ORed into the next output byte; two trailing padding bytes drop four bits
unchecked. -/
def Obligations.StaleBitsMergeIntoLaterOutput : Prop :=
  ∀ (s : State) (i j k : Sextet), s.dec.fault = .noFault → 2 ≤ s.params.decOutCap →
    (∃ t, core.run 6 (s.withEvents ((decodeWords [alpha i, alpha j, 0x3D#8, alpha k]).map .command)) = .next t
      ∧ t.dec.phase = .doneOk
      ∧ t.dec.out = [i ++ j.extractLsb' 4 2,
          j.extractLsb' 2 2 ++ (j.extractLsb' 0 2 ||| k.extractLsb' 4 2) ++ k.extractLsb' 0 4])
    ∧ (∃ t, core.run 6 (s.withEvents ((decodeWords [alpha i, alpha j, 0x3D#8, 0x3D#8]).map .command)) = .next t
      ∧ t.dec.phase = .doneOk ∧ t.dec.out = [i ++ j.extractLsb' 4 2]
      ∧ t.dec.acc = j.extractLsb' 0 4 ++ 0#12)

/-! ### Round trips -/

/-- R143, R144: decoding an encoded text gives the bytes back, and encoding those gives the text. -/
def Obligations.DecodeOfEncodeText : Prop :=
  ∀ b : List Byte, decodeText (encodeText b) = .ok b
    ∧ ∃ out, decodeText (encodeText b) = .ok out ∧ encodeText out = encodeText b

/-- R143 on the machine: encode, then send the text back through the decoder. -/
def Obligations.MachineRoundTrip : Prop :=
  ∀ (s : State) (b : List Byte), s.enc.fault = .noFault → s.dec.fault = .noFault →
    encodedLength b.length ≤ s.params.encOutCap → b.length ≤ s.params.decOutCap →
    ∃ m t, core.run (b.length + 2) (s.withEvents ((encodeWords b).map .command)) = .next m
      ∧ encResult m.enc = .text m.enc.out
      ∧ core.run (m.enc.out.length + 2) (m.withEvents ((decodeWords m.enc.out).map .command)) = .next t
      ∧ decResult t.dec = .ok b

/-! ### Invariants -/

/-- The invariant of Safety.lean (R25 to R28, R31 to R36, R102) is kept by every step, from every state
that has it, reached or not. -/
def Obligations.EveryStepKeepsTheInvariant : Prop :=
  ∀ s t : State, s.Inv → step s = .next t → t.Inv

/-- The invariant holds right after reset for all capacities R7 admits, and at `State.reset`. -/
def Obligations.InvariantHoldsAtReset : Prop :=
  (∀ p : Params, p.wf = true → (State.resetWith p).Inv) ∧ State.reset.Inv

/-- R26, R33 and R135: in a state with the invariant neither counter wraps inside a command: not when
ENC_BYTE adds 8 or EXTRACT subtracts 6, not when INSERT adds 6, RECON subtracts 8 or PADSTEP
subtracts 2. -/
def Obligations.CountersNeverWrap : Prop :=
  ∀ (s : State) (d : Byte) (v : Sextet), s.Inv →
    ((s.enc.accept d).pend.toNat = s.enc.pend.toNat + 8 ∧ s.enc.pend.toNat + 8 ≤ 12)
    ∧ ((s.dec.insert v).held.toNat = s.dec.held.toNat + 6 ∧ s.dec.held.toNat + 6 ≤ 12)
    ∧ ((s.enc.accept d).extract.pend.toNat = (s.enc.pend.toNat + 8) % 6)
    ∧ ((s.dec.insert v).recon.held.toNat = (s.dec.held.toNat + 6) % 8)
    ∧ (2 ≤ s.dec.held.toNat → s.dec.padStep.held.toNat = s.dec.held.toNat - 2)
    ∧ (s.dec.held.toNat < 2 → s.dec.padStep.held = s.dec.held)

/-- R236's bound on one step's output; and no step but reset, INIT or an architected error shortens an output. -/
def Obligations.EachStepDoesBoundedWork : Prop :=
  ∀ s t : State, step s = .next t →
    t.enc.out.length ≤ s.enc.out.length + 3 ∧ t.dec.out.length ≤ s.dec.out.length + 1
    ∧ (t.enc.out ≠ [] → s.enc.out <+: t.enc.out) ∧ (t.dec.out ≠ [] → s.dec.out <+: t.dec.out)

/-- R104 and R136: EXTRACT and RECON run their loops to the end at every value of the counters, also
at those no run reaches: a symbol for each whole six bits, a byte for each whole eight. -/
def Obligations.DatapathLoopsRunToTheirEnd : Prop :=
  (∀ u : EncUnit, u.extract.pend.toNat = u.pend.toNat % 6
    ∧ u.extract.out.length = u.out.length + u.pend.toNat / 6
    ∧ u.extract.acc = u.acc <<< (6 * (u.pend.toNat / 6))
    ∧ u.extract.phase = u.phase ∧ u.extract.mod3 = u.mod3 ∧ u.extract.fault = u.fault)
  ∧ (∀ u : DecUnit, u.recon.held.toNat = u.held.toNat % 8
    ∧ u.recon.out.length = u.out.length + u.held.toNat / 8
    ∧ u.recon.acc = u.acc <<< (8 * (u.held.toNat / 8))
    ∧ u.recon.phase = u.phase ∧ u.recon.err = u.err ∧ u.recon.info = u.info ∧ u.recon.fault = u.fault)

/-! ### Read port and results -/

/-- R55: the address map. -/
def Obligations.ReadPortAddressMap : Prop :=
  ∀ s : State,
    portRead s 0x00000000#32 = encStatus s.enc
    ∧ portRead s 0x00000001#32 = s.enc.acc.setWidth 32
    ∧ portRead s 0x00000002#32 = BitVec.ofNat 32 s.enc.out.length
    ∧ portRead s 0x00000003#32 = decStatus s.dec
    ∧ portRead s 0x00000004#32 = s.dec.acc.setWidth 32
    ∧ portRead s 0x00000005#32 = s.dec.info.setWidth 32
    ∧ portRead s 0x00000006#32 =
        (if s.dec.phase = .doneOk then BitVec.ofNat 32 s.dec.out.length else 0#32)
    ∧ (∀ i : Nat, i < 2 ^ 30 → portRead s (BitVec.ofNat 32 (0x40000000 + i)) =
        (match s.enc.out[i]? with | some b => b.setWidth 32 | none => 0#32))
    ∧ (∀ i : Nat, i < 2 ^ 30 → portRead s (BitVec.ofNat 32 (0x80000000 + i)) =
        (if s.dec.phase = .doneOk then (match s.dec.out[i]? with | some b => b.setWidth 32 | none => 0#32) else 0#32))
    ∧ (∀ a : Word32, (7 ≤ a.toNat ∧ a.toNat < 0x40000000) ∨ 0xC0000000 ≤ a.toNat → portRead s a = 0#32)

/-- R40 and R42: the status registers' fields, each enumeration as the number the spec gives each of
its values (R24, R29, R31, R35, R37, R203); the fields' legal values between two commands; and the
registers' value after reset. -/
def Obligations.StatusRegisterFields : Prop :=
  (∀ s : State,
    (portRead s 0x00000000#32).extractLsb' 0 2 =
        (match s.enc.phase with | .idle => 0#2 | .active => 1#2 | .done => 2#2)
    ∧ (portRead s 0x00000000#32).extractLsb' 2 4 = s.enc.pend
    ∧ (portRead s 0x00000000#32).extractLsb' 6 2 = s.enc.mod3
    ∧ (portRead s 0x00000000#32).extractLsb' 8 4 =
        (match s.enc.fault with
          | .noFault => 0#4 | .illegalCommand => 1#4 | .sequenceError => 2#4 | .outputOverflow => 3#4)
    ∧ (portRead s 0x00000000#32).extractLsb' 12 20 = 0#20
    ∧ (portRead s 0x00000003#32).extractLsb' 0 2 =
        (match s.dec.phase with | .idle => 0#2 | .active => 1#2 | .doneOk => 2#2 | .doneErr => 3#2)
    ∧ (portRead s 0x00000003#32).extractLsb' 2 4 = s.dec.held
    ∧ (portRead s 0x00000003#32).extractLsb' 6 2 =
        (match s.dec.err with | .noError => 0#2 | .invalidSymbol => 1#2 | .invalidPadding => 2#2)
    ∧ (portRead s 0x00000003#32).extractLsb' 8 4 =
        (match s.dec.fault with
          | .noFault => 0#4 | .illegalCommand => 1#4 | .sequenceError => 2#4 | .outputOverflow => 3#4
          | .padUnderflow => 4#4)
    ∧ (portRead s 0x00000003#32).extractLsb' 12 20 = 0#20)
  ∧ (∀ s : State, s.Inv →
      ((portRead s 0x00000000#32).extractLsb' 0 2).toNat ≤ 2
      ∧ (portRead s 0x00000000#32).extractLsb' 2 4 ∈ [0#4, 2#4, 4#4]
      ∧ ((portRead s 0x00000000#32).extractLsb' 6 2).toNat ≤ 2
      ∧ ((portRead s 0x00000000#32).extractLsb' 8 4).toNat ≤ 3
      ∧ (portRead s 0x00000003#32).extractLsb' 2 4 ∈ [0#4, 2#4, 4#4, 6#4]
      ∧ ((portRead s 0x00000003#32).extractLsb' 6 2).toNat ≤ 2
      ∧ ((portRead s 0x00000003#32).extractLsb' 8 4).toNat ≤ 4)
  ∧ (∀ p : Params, portRead (State.resetWith p) 0x00000000#32 = 0x00000000#32
      ∧ portRead (State.resetWith p) 0x00000003#32 = 0x00000000#32)

/-- R34, R55: no byte of a decode that has not succeeded can be read: two states that differ only in
the decoder's output answer every read alike outside DONE_OK. -/
def Obligations.UnfinishedDecodeOutputIsHidden : Prop :=
  ∀ (s : State) (other : List Byte) (addr : Word32), s.dec.phase ≠ .doneOk →
    portRead { s with dec := { s.dec with out := other } } addr = portRead s addr

/-- R210: a unit's result, case by case. -/
def Obligations.ResultsFollowTheUnitState : Prop :=
  ∀ (e : EncUnit) (d : DecUnit),
    (e.fault = .noFault → e.phase = .done → encResult e = .text e.out)
    ∧ (e.fault ≠ .noFault → encResult e = .fault e.fault)
    ∧ (e.fault = .noFault → e.phase ≠ .done → encResult e = .unfinished)
    ∧ (d.fault = .noFault → d.phase = .doneOk → decResult d = .ok d.out)
    ∧ (d.fault = .noFault → d.phase = .doneErr →
        (d.err = .invalidSymbol → decResult d = .invalidSymbol d.info)
        ∧ (d.err = .invalidPadding → decResult d = .invalidPadding d.info))
    ∧ (d.fault ≠ .noFault → decResult d = .fault d.fault)
    ∧ (d.fault = .noFault → d.phase ≠ .doneOk → d.phase ≠ .doneErr → decResult d = .unfinished)

/-! ### The assembler -/

/-- R79: the pseudo-instructions' expansions, for every list of bytes and every printable string. -/
def Obligations.PseudoInstructionsExpand : Prop :=
  (∀ ds : List Byte,
    (AsmLine.encBytes (ds.map BitVec.toNat)).words = some (ds.map fun d => encode (.encByte d))
    ∧ (AsmLine.encRun (ds.map BitVec.toNat)).words = some (encodeWords ds))
  ∧ (AsmLine.encRun []).words = some [0x0000#16, 0x0200#16]
  ∧ (∀ cs : List Byte, (∀ c ∈ cs, 0x20 ≤ c.toNat ∧ c.toNat ≤ 0x7E) →
      (AsmLine.decStr (cs.map BitVec.toNat)).words = some (cs.map fun c => encode (.decChar c))
      ∧ (AsmLine.decRun (cs.map BitVec.toNat)).words = some (decodeWords cs))
  ∧ (∀ ns : List Nat, (∃ n ∈ ns, n < 0x20 ∨ 0x7E < n) →
      (AsmLine.decStr ns).words = none ∧ (AsmLine.decRun ns).words = none)

/-- R78: the words of the plain lines, and that an operand out of range is rejected and not encoded. -/
def Obligations.AssemblerRejectsOperandsOutOfRange : Prop :=
  AsmLine.encInit.words = some [0x0000#16] ∧ AsmLine.encFinal.words = some [0x0200#16]
  ∧ AsmLine.decInit.words = some [0x0400#16] ∧ AsmLine.decFinal.words = some [0x0600#16]
  ∧ (∀ n : Nat, n ≤ 255 →
      (AsmLine.encByte n).words = some [0x0100#16 ||| BitVec.ofNat 16 n]
      ∧ (AsmLine.decChar n).words = some [0x0500#16 ||| BitVec.ofNat 16 n])
  ∧ (∀ n : Nat, 255 < n → (AsmLine.encByte n).words = none ∧ (AsmLine.decChar n).words = none)
  ∧ (∀ n : Nat, n ≤ 65535 → (AsmLine.word n).words = some [BitVec.ofNat 16 n])
end

