-- ==== Sys2Proof/Laws/State.lean ====
section
/-! SUPPORT. One lemma per field of each named update of the state, true by definition, so that no
proof unfolds a record update. -/

namespace Sys2Proof.Machine

open Sys2Proof

@[simp] theorem EncUnit.raise_phase (u : EncUnit) (f : EncFault) :
    (u.raise f).phase = u.phase := rfl

@[simp] theorem EncUnit.raise_acc (u : EncUnit) (f : EncFault) :
    (u.raise f).acc = u.acc := rfl

@[simp] theorem EncUnit.raise_pend (u : EncUnit) (f : EncFault) :
    (u.raise f).pend = u.pend := rfl

@[simp] theorem EncUnit.raise_mod3 (u : EncUnit) (f : EncFault) :
    (u.raise f).mod3 = u.mod3 := rfl

@[simp] theorem EncUnit.raise_out (u : EncUnit) (f : EncFault) :
    (u.raise f).out = u.out := rfl

@[simp] theorem EncUnit.raise_fault (u : EncUnit) (f : EncFault) :
    (u.raise f).fault = f := rfl

@[simp] theorem DecUnit.raise_phase (u : DecUnit) (f : DecFault) :
    (u.raise f).phase = u.phase := rfl

@[simp] theorem DecUnit.raise_acc (u : DecUnit) (f : DecFault) :
    (u.raise f).acc = u.acc := rfl

@[simp] theorem DecUnit.raise_held (u : DecUnit) (f : DecFault) :
    (u.raise f).held = u.held := rfl

@[simp] theorem DecUnit.raise_out (u : DecUnit) (f : DecFault) :
    (u.raise f).out = u.out := rfl

@[simp] theorem DecUnit.raise_err (u : DecUnit) (f : DecFault) :
    (u.raise f).err = u.err := rfl

@[simp] theorem DecUnit.raise_info (u : DecUnit) (f : DecFault) :
    (u.raise f).info = u.info := rfl

@[simp] theorem DecUnit.raise_fault (u : DecUnit) (f : DecFault) :
    (u.raise f).fault = f := rfl

@[simp] theorem DecUnit.fail_phase (u : DecUnit) (e : DecErr) (b : Byte) :
    (u.fail e b).phase = .doneErr := rfl

@[simp] theorem DecUnit.fail_acc (u : DecUnit) (e : DecErr) (b : Byte) :
    (u.fail e b).acc = u.acc := rfl

@[simp] theorem DecUnit.fail_held (u : DecUnit) (e : DecErr) (b : Byte) :
    (u.fail e b).held = u.held := rfl

@[simp] theorem DecUnit.fail_out (u : DecUnit) (e : DecErr) (b : Byte) :
    (u.fail e b).out = [] := rfl

@[simp] theorem DecUnit.fail_err (u : DecUnit) (e : DecErr) (b : Byte) :
    (u.fail e b).err = e := rfl

@[simp] theorem DecUnit.fail_info (u : DecUnit) (e : DecErr) (b : Byte) :
    (u.fail e b).info = b := rfl

@[simp] theorem DecUnit.fail_fault (u : DecUnit) (e : DecErr) (b : Byte) :
    (u.fail e b).fault = u.fault := rfl

@[simp] theorem EncUnit.emitGroup_phase (u : EncUnit) :
    (u.emitGroup).phase = u.phase := rfl

@[simp] theorem EncUnit.emitGroup_acc (u : EncUnit) :
    (u.emitGroup).acc = u.acc <<< 6 := rfl

@[simp] theorem EncUnit.emitGroup_pend (u : EncUnit) :
    (u.emitGroup).pend = u.pend - 6#4 := rfl

@[simp] theorem EncUnit.emitGroup_mod3 (u : EncUnit) :
    (u.emitGroup).mod3 = u.mod3 := rfl

@[simp] theorem EncUnit.emitGroup_out (u : EncUnit) :
    (u.emitGroup).out = u.out ++ [alpha (u.acc.extractLsb' 10 6)] := rfl

@[simp] theorem EncUnit.emitGroup_fault (u : EncUnit) :
    (u.emitGroup).fault = u.fault := rfl

@[simp] theorem EncUnit.accept_phase (u : EncUnit) (d : Byte) :
    (u.accept d).phase = u.phase := rfl

@[simp] theorem EncUnit.accept_acc (u : EncUnit) (d : Byte) :
    (u.accept d).acc = u.acc ||| (d.setWidth 16 <<< (8 - u.pend.toNat)) := rfl

@[simp] theorem EncUnit.accept_pend (u : EncUnit) (d : Byte) :
    (u.accept d).pend = u.pend + 8#4 := rfl

@[simp] theorem EncUnit.accept_mod3 (u : EncUnit) (d : Byte) :
    (u.accept d).mod3 = nextMod3 u.mod3 := rfl

@[simp] theorem EncUnit.accept_out (u : EncUnit) (d : Byte) :
    (u.accept d).out = u.out := rfl

@[simp] theorem EncUnit.accept_fault (u : EncUnit) (d : Byte) :
    (u.accept d).fault = u.fault := rfl

@[simp] theorem DecUnit.insert_phase (u : DecUnit) (v : Sextet) :
    (u.insert v).phase = u.phase := rfl

@[simp] theorem DecUnit.insert_acc (u : DecUnit) (v : Sextet) :
    (u.insert v).acc = u.acc ||| (v.setWidth 16 <<< (10 - u.held.toNat)) := rfl

@[simp] theorem DecUnit.insert_held (u : DecUnit) (v : Sextet) :
    (u.insert v).held = u.held + 6#4 := rfl

@[simp] theorem DecUnit.insert_out (u : DecUnit) (v : Sextet) :
    (u.insert v).out = u.out := rfl

@[simp] theorem DecUnit.insert_err (u : DecUnit) (v : Sextet) :
    (u.insert v).err = u.err := rfl

@[simp] theorem DecUnit.insert_info (u : DecUnit) (v : Sextet) :
    (u.insert v).info = u.info := rfl

@[simp] theorem DecUnit.insert_fault (u : DecUnit) (v : Sextet) :
    (u.insert v).fault = u.fault := rfl

@[simp] theorem DecUnit.emitByte_phase (u : DecUnit) :
    (u.emitByte).phase = u.phase := rfl

@[simp] theorem DecUnit.emitByte_acc (u : DecUnit) :
    (u.emitByte).acc = u.acc <<< 8 := rfl

@[simp] theorem DecUnit.emitByte_held (u : DecUnit) :
    (u.emitByte).held = u.held - 8#4 := rfl

@[simp] theorem DecUnit.emitByte_out (u : DecUnit) :
    (u.emitByte).out = u.out ++ [u.acc.extractLsb' 8 8] := rfl

@[simp] theorem DecUnit.emitByte_err (u : DecUnit) :
    (u.emitByte).err = u.err := rfl

@[simp] theorem DecUnit.emitByte_info (u : DecUnit) :
    (u.emitByte).info = u.info := rfl

@[simp] theorem DecUnit.emitByte_fault (u : DecUnit) :
    (u.emitByte).fault = u.fault := rfl

@[simp] theorem resetUnits_enc (s : State) :
    (resetUnits s).enc = EncUnit.reset := rfl

@[simp] theorem resetUnits_dec (s : State) :
    (resetUnits s).dec = DecUnit.reset := rfl

@[simp] theorem resetUnits_params (s : State) :
    (resetUnits s).params = s.params := rfl

@[simp] theorem resetUnits_host (s : State) :
    (resetUnits s).host = s.host := rfl

@[simp] theorem resetUnits_answers (s : State) :
    (resetUnits s).answers = s.answers := rfl

@[simp] theorem answerRead_enc (s : State) (addr : Word32) :
    (answerRead addr s).enc = s.enc := rfl

@[simp] theorem answerRead_dec (s : State) (addr : Word32) :
    (answerRead addr s).dec = s.dec := rfl

@[simp] theorem answerRead_params (s : State) (addr : Word32) :
    (answerRead addr s).params = s.params := rfl

@[simp] theorem answerRead_host (s : State) (addr : Word32) :
    (answerRead addr s).host = s.host := rfl

@[simp] theorem answerRead_answers (s : State) (addr : Word32) :
    (answerRead addr s).answers = s.answers ++ [(addr, portRead s addr)] := rfl

@[simp] theorem State.issue_enc (s : State) (e : HostEvent) :
    (s.issue e).enc = s.enc := rfl

@[simp] theorem State.issue_dec (s : State) (e : HostEvent) :
    (s.issue e).dec = s.dec := rfl

@[simp] theorem State.issue_params (s : State) (e : HostEvent) :
    (s.issue e).params = s.params := rfl

@[simp] theorem State.issue_host (s : State) (e : HostEvent) :
    (s.issue e).host = s.host ++ [e] := rfl

@[simp] theorem State.issue_answers (s : State) (e : HostEvent) :
    (s.issue e).answers = s.answers := rfl

@[simp] theorem State.issueNext_enc (s : State) (w : Word16) :
    (s.issueNext w).enc = s.enc := rfl

@[simp] theorem State.issueNext_dec (s : State) (w : Word16) :
    (s.issueNext w).dec = s.dec := rfl

@[simp] theorem State.issueNext_params (s : State) (w : Word16) :
    (s.issueNext w).params = s.params := rfl

@[simp] theorem State.issueNext_host (s : State) (w : Word16) :
    (s.issueNext w).host = .command w :: s.host := rfl

@[simp] theorem State.issueNext_answers (s : State) (w : Word16) :
    (s.issueNext w).answers = s.answers := rfl

@[simp] theorem State.withEvents_enc (s : State) (es : List HostEvent) :
    (s.withEvents es).enc = s.enc := rfl

@[simp] theorem State.withEvents_dec (s : State) (es : List HostEvent) :
    (s.withEvents es).dec = s.dec := rfl

@[simp] theorem State.withEvents_params (s : State) (es : List HostEvent) :
    (s.withEvents es).params = s.params := rfl

@[simp] theorem State.withEvents_host (s : State) (es : List HostEvent) :
    (s.withEvents es).host = es ++ s.host := rfl

@[simp] theorem State.withEvents_answers (s : State) (es : List HostEvent) :
    (s.withEvents es).answers = s.answers := rfl

end Sys2Proof.Machine
end

