-- ==== Sys2Proof/Laws/Ops.lean ====
section
/-! SUPPORT. One lemma per shared operation that says what it can do: routing to a unit, the tables,
the four datapath blocks, and serving a word or an event. -/

namespace Sys2Proof.Machine.Laws

open Sys2Proof Sys2Proof.Machine

/-! ### The tables -/

theorem rev_alpha (i : Sextet) : rev (alpha i) = .idx i := by
  revert i; decide

theorem rev_padByte : rev Config.padByte = .pad := by decide

/-- Only the alphabet byte of an index is classified as that index. -/
theorem eq_alpha_of_rev {c : Byte} {v : Sextet} (h : rev c = .idx v) : c = alpha v := by
  have key : ∀ c : Byte, (match rev c with | .idx v => c == alpha v | .pad => true | .invalid => true) = true := by
    decide
  have := key c
  rw [h] at this
  simpa using this

theorem isAlphabetByte_alpha (i : Sextet) : isAlphabetByte (alpha i) = true := by
  simp [isAlphabetByte, rev_alpha]

theorem isTextByte_of_isAlphabetByte {c : Byte} (h : isAlphabetByte c = true) : isTextByte c = true := by
  unfold isAlphabetByte at h
  unfold isTextByte
  cases hr : rev c <;> simp_all

theorem isTextByte_padByte : isTextByte Config.padByte = true := by decide

/-! ### Routing to a unit (R205, R206) -/

theorem encCommand_of_fault {body : Params → EncUnit → EncUnit} {s : State} (h : s.enc.fault ≠ .noFault) :
    encCommand body s = s := by simp [encCommand, h]

theorem encCommand_of_noFault {body : Params → EncUnit → EncUnit} {s : State} (h : s.enc.fault = .noFault) :
    encCommand body s = { s with enc := body s.params s.enc } := by simp [encCommand, h]

theorem decCommand_of_fault {body : Params → DecUnit → DecUnit} {s : State} (h : s.dec.fault ≠ .noFault) :
    decCommand body s = s := by simp [decCommand, h]

theorem decCommand_of_noFault {body : Params → DecUnit → DecUnit} {s : State} (h : s.dec.fault = .noFault) :
    decCommand body s = { s with dec := body s.params s.dec } := by simp [decCommand, h]

theorem encCommand_frame (body : Params → EncUnit → EncUnit) (s : State) :
    onlyEncChanged s (encCommand body s) := by
  unfold encCommand onlyEncChanged; split <;> simp

theorem decCommand_frame (body : Params → DecUnit → DecUnit) (s : State) :
    onlyDecChanged s (decCommand body s) := by
  unfold decCommand onlyDecChanged; split <;> simp

/-! ### The datapath blocks -/

/-- What EXTRACT does by the count: two groups, one, or none (R104). -/
theorem extract_eq (u : EncUnit) :
    u.extract = if 6 ≤ u.pend.toNat then
        (if 6 ≤ (u.pend - 6#4).toNat then u.emitGroup.emitGroup else u.emitGroup)
      else u := by
  simp [EncUnit.extract, EncUnit.extractLoop]

/-- EXTRACT's loop has run to its end: fewer than 6 bits are pending (R104). -/
theorem extract_pend_lt (u : EncUnit) : u.extract.pend.toNat < 6 := by
  have key : ∀ p : BitVec 4, (6 ≤ p.toNat → 6 ≤ (p - 6#4).toNat → (p - 6#4 - 6#4).toNat < 6) := by decide
  rw [extract_eq]
  split
  · split
    · exact key _ ‹_› ‹_›
    · simp only [EncUnit.emitGroup_pend]; omega
  · omega

/-- EXTRACT writes only the output, the accumulator and the count (R104). -/
theorem extract_frame (u : EncUnit) :
    u.extract.phase = u.phase ∧ u.extract.mod3 = u.mod3 ∧ u.extract.fault = u.fault := by
  unfold EncUnit.extract
  simp only [EncUnit.extractLoop]
  split <;> (try split) <;> simp

/-- RECON's loop has run to its end: fewer than 8 bits are held (R136). -/
theorem recon_held_lt (u : DecUnit) : u.recon.held.toNat < 8 := by
  obtain ⟨ph, acc, held, out, e, i, f⟩ := u
  have : ∀ p : BitVec 4, (if 8 ≤ p.toNat then p - 8#4 else p).toNat < 8 := by decide
  have h := this held
  simp only [DecUnit.recon, DecUnit.reconLoop, DecUnit.emitByte]
  split <;> simp_all

/-- What RECON does: nothing below 8 held bits, else one byte is output (R136). -/
theorem recon_eq (u : DecUnit) : u.recon = if 8 ≤ u.held.toNat then u.emitByte else u := by
  simp [DecUnit.recon, DecUnit.reconLoop]

/-- Everything PADSTEP can do (R135). -/
theorem padStep_cases (u : DecUnit) :
    (u.held.toNat < 2 ∧ u.padStep = u.raise .padUnderflow)
    ∨ (2 ≤ u.held.toNat ∧ u.padStep = { u with held := u.held - 2#4 }) := by
  unfold DecUnit.padStep
  split
  · exact .inl ⟨‹_›, rfl⟩
  · exact .inr ⟨by omega, rfl⟩

/-- PADCOUNT's three values (R105). -/
theorem padCount_values : padCount 0#2 = 0 ∧ padCount 1#2 = 2 ∧ padCount 2#2 = 1 := by decide

/-! ### Serving a word -/

/-- What a command word does to the encoder: nothing if it is faulted or not selected (R205, R207). -/
def wordEnc (w : Word16) (p : Params) (u : EncUnit) : EncUnit :=
  if u.fault = .noFault then
    match decode w with
    | .illegal .enc _ => u.raise .illegalCommand
    | .command .encInit => encInitBody p u
    | .command (.encByte d) => encByteBody d p u
    | .command .encFinal => encFinalBody p u
    | _ => u
  else u

/-- What a command word does to the decoder. -/
def wordDec (w : Word16) (p : Params) (u : DecUnit) : DecUnit :=
  if u.fault = .noFault then
    match decode w with
    | .illegal .dec _ => u.raise .illegalCommand
    | .command .decInit => decInitBody p u
    | .command (.decChar c) => decCharBody c p u
    | .command .decFinal => decFinalBody p u
    | _ => u
  else u

/-- Every word answers a next state, in which only the two units differ, each by its own function. -/
theorem serveCommand_eq (w : Word16) (s : State) :
    serveCommand w s = .next { s with enc := wordEnc w s.params s.enc, dec := wordDec w s.params s.dec } := by
  unfold serveCommand wordEnc wordDec
  split
  · rename_i i hi
    cases i <;>
      simp only [exec, execEncInit, execEncByte, execEncFinal, execDecInit, execDecChar, execDecFinal,
        encCommand, decCommand, hi] <;> split <;> simp
  · rename_i unit why hi
    cases unit <;> simp only [illegalCommand, encCommand, decCommand, hi] <;> split <;> simp

/-- The unit a decoded word is for is the one bit 10 names (R74). -/
theorem decode_unit (w : Word16) :
    (∀ i, decode w = .command i → i.unit = unitOfWord w)
    ∧ (∀ unit why, decode w = .illegal unit why → unit = unitOfWord w) := by
  unfold decode
  cases hu : unitOfWord w <;>
  · constructor
    · intro i h
      simp only at h
      split at h
      · simp at h
      · split at h
        · split at h <;> simp at h
          subst h; rfl
        · split at h
          · simp at h; subst h; rfl
          · split at h
            · split at h <;> simp at h
              subst h; rfl
            · simp at h
    · intro unit why h
      simp only at h
      repeat' (split at h)
      all_goals simp_all

/-- A word for the decoder leaves the encoder alone. -/
theorem wordEnc_of_dec {w : Word16} (h : unitOfWord w = .dec) (p : Params) (u : EncUnit) : wordEnc w p u = u := by
  have hd := decode_unit w
  unfold wordEnc
  split
  · split <;> first | rfl | simp_all [Instr.unit]
  · rfl

/-- A word for the encoder leaves the decoder alone. -/
theorem wordDec_of_enc {w : Word16} (h : unitOfWord w = .enc) (p : Params) (u : DecUnit) : wordDec w p u = u := by
  have hd := decode_unit w
  unfold wordDec
  split
  · split <;> first | rfl | simp_all [Instr.unit]
  · rfl

theorem wordEnc_of_fault {w : Word16} {p : Params} {u : EncUnit} (h : u.fault ≠ .noFault) : wordEnc w p u = u := by
  simp [wordEnc, h]

theorem wordDec_of_fault {w : Word16} {p : Params} {u : DecUnit} (h : u.fault ≠ .noFault) : wordDec w p u = u := by
  simp [wordDec, h]

/-! ### Serving an event -/

/-- A step serves the oldest pending event. -/
theorem step_cons (e : HostEvent) (rest : List HostEvent) (s : State) (h : s.host = e :: rest) :
    step s = serveEvent e { s with host := rest } := by
  simp [step, serveNext, h]

theorem step_nil (s : State) (h : s.host = []) : step s = .next s := by
  simp [step, serveNext, h]

/-- Every step answers a next state: one of five cases. -/
theorem step_cases (s : State) :
    (s.host = [] ∧ step s = .next s)
    ∨ (∃ w rest, s.host = .command w :: rest ∧ step s = .next
        { s with enc := wordEnc w s.params s.enc, dec := wordDec w s.params s.dec, host := rest })
    ∨ (∃ a rest, s.host = .read a :: rest ∧ step s = .next
        { s with host := rest, answers := s.answers ++ [(a, portRead { s with host := rest } a)] })
    ∨ (∃ rest, s.host = .reset :: rest ∧ step s = .next
        { s with enc := EncUnit.reset, dec := DecUnit.reset, host := rest })
    ∨ (∃ w rest, s.host = .commandWithReset w :: rest ∧ step s = .next
        { s with enc := wordEnc w s.params s.enc, dec := wordDec w s.params s.dec, host := .reset :: rest }) := by
  match hh : s.host with
  | [] => exact .inl ⟨rfl, step_nil s hh⟩
  | .command w :: rest =>
    exact .inr (.inl ⟨w, rest, rfl, by rw [step_cons _ _ _ hh]; simp [serveEvent, serveCommand_eq]⟩)
  | .read a :: rest =>
    exact .inr (.inr (.inl ⟨a, rest, rfl, by rw [step_cons _ _ _ hh]; simp [serveEvent, answerRead]⟩))
  | .reset :: rest =>
    exact .inr (.inr (.inr (.inl ⟨rest, rfl, by rw [step_cons _ _ _ hh]; simp [serveEvent, resetUnits]⟩)))
  | .commandWithReset w :: rest =>
    exact .inr (.inr (.inr (.inr ⟨w, rest, rfl, by rw [step_cons _ _ _ hh]; simp [serveEvent, serveCommand_eq]⟩)))

end Sys2Proof.Machine.Laws
end

