-- ==== Sys2Proof/Laws/PerInstr.lean ====
section
/-! SUPPORT. What holds of every command as syntax, one lemma per constructor: bit 10 of its word
names its unit, and bits 15:11 are zero (R70). -/

namespace Sys2Proof.Laws.RoutingBit

open Sys2Proof

/-- The command's word is routed to its own unit and its reserved bits are 0. -/
def Statement (i : Instr) : Prop :=
  unitOfWord (encode i) = i.unit ∧ (FormatC.ofWord (encode i)).rsv = 0#5

theorem encInit : Statement .encInit := by unfold Statement; decide

theorem encByte (d : Byte) : Statement (.encByte d) := by
  unfold Statement; revert d; decide

theorem encFinal : Statement .encFinal := by unfold Statement; decide

theorem decInit : Statement .decInit := by unfold Statement; decide

theorem decChar (c : Byte) : Statement (.decChar c) := by
  unfold Statement; revert c; decide

theorem decFinal : Statement .decFinal := by unfold Statement; decide

end Sys2Proof.Laws.RoutingBit
end

