-- ==== Sys2Proof/Laws/Run.lean ====
section
/-! SUPPORT. Running several steps: one step at a time, and any list of events without a reset, on
which each unit's end state is its own words' fold (R58, R59). -/

namespace Sys2Proof.Machine.Laws

open Sys2Proof Sys2Proof.Machine

/-- One step of a longer run. -/
theorem run_next {s t : State} (h : step s = .next t) (n : Nat) : core.run (n + 1) s = core.run n t := by
  have h' : core.step s = .next t := h
  simp only [Host.Core.run, h']

/-- The encoder after a list of command words. -/
def runEnc (p : Params) (u : EncUnit) (ws : List Word16) : EncUnit := ws.foldl (fun u w => wordEnc w p u) u

/-- The decoder after a list of command words. -/
def runDec (p : Params) (u : DecUnit) (ws : List Word16) : DecUnit := ws.foldl (fun u w => wordDec w p u) u

/-- Any list of commands and reads is served in as many steps; each unit sees its own words. -/
theorem run_events (es : List HostEvent) :
    ∀ (s : State) (rest : List HostEvent), (∀ e ∈ es, e.resets = false) → s.host = es ++ rest →
      ∃ t : State, core.run es.length s = .next t
        ∧ t.enc = runEnc s.params s.enc (wordsFor .enc es)
        ∧ t.dec = runDec s.params s.dec (wordsFor .dec es)
        ∧ t.host = rest ∧ t.params = s.params := by
  induction es with
  | nil => intro s rest _ h; exact ⟨s, rfl, rfl, rfl, h, rfl⟩
  | cons e es ih =>
    intro s rest hr h
    have hr' : ∀ e ∈ es, e.resets = false := fun e he => hr e (List.mem_cons_of_mem _ he)
    have he := hr e List.mem_cons_self
    cases e with
    | reset => simp [HostEvent.resets] at he
    | commandWithReset w => simp [HostEvent.resets] at he
    | read a =>
      have hs := step_cons _ _ s h
      obtain ⟨t, h1, h2, h3, h4, h5⟩ := ih (answerRead a { s with host := es ++ rest }) rest hr' rfl
      refine ⟨t, ?_, ?_, ?_, h4, h5⟩
      · rw [List.length_cons, run_next hs]; exact h1
      · rw [h2]; simp [wordsFor, List.filterMap_cons, HostEvent.wordFor]
      · rw [h3]; simp [wordsFor, List.filterMap_cons, HostEvent.wordFor]
    | command w =>
      have hs : step s = .next
          { s with enc := wordEnc w s.params s.enc, dec := wordDec w s.params s.dec, host := es ++ rest } := by
        rw [step_cons _ _ _ h]; simp [serveEvent, serveCommand_eq]
      obtain ⟨t, h1, h2, h3, h4, h5⟩ := ih
        { s with enc := wordEnc w s.params s.enc, dec := wordDec w s.params s.dec, host := es ++ rest } rest hr' rfl
      refine ⟨t, ?_, ?_, ?_, h4, h5⟩
      · rw [List.length_cons, run_next hs]; exact h1
      · rw [h2]; cases hu : unitOfWord w <;> simp [wordsFor, HostEvent.wordFor, hu, runEnc, wordEnc_of_dec]
      · rw [h3]; cases hu : unitOfWord w <;> simp [wordsFor, HostEvent.wordFor, hu, runDec, wordDec_of_enc]

end Sys2Proof.Machine.Laws
end

