-- ==== Sys2Proof/Tests/Slice0.lean ====
section
/-! SUPPORT. The model's own tests: the checks of WellFormed on ill-formed terms, decoding from words
written out from R73, one-step tests on vectors of 95_test_vectors.md, and for every statement with
hypotheses a witness that meets them. -/

namespace Sys2Proof.Tests

open Sys2Proof Sys2Proof.Machine

/-! ### Small states -/

/-- An unfaulted encoder. -/
def encAt (phase : EncPhase) (acc : Word16) (pend : BitVec 4) (mod3 : BitVec 2) (out : List Byte) : EncUnit :=
  { phase := phase, acc := acc, pend := pend, mod3 := mod3, out := out, fault := .noFault }

/-- An unfaulted decoder without an error. -/
def decAt (phase : DecPhase) (acc : Word16) (held : BitVec 4) (out : List Byte) : DecUnit :=
  { phase := phase, acc := acc, held := held, out := out, err := .noError, info := 0#8, fault := .noFault }

/-- A decoder in DONE_ERR with InvalidSymbol(0x21), as after "!" (F8). -/
def decFailed : DecUnit :=
  { phase := .doneErr, acc := 0#16, held := 0#4, out := [], err := .invalidSymbol, info := 0x21#8, fault := .noFault }

/-- A machine with given units and capacities. -/
def machine (e : EncUnit) (d : DecUnit) (encCap decCap : Nat) : State :=
  { enc := e, dec := d, params := { encOutCap := encCap, decOutCap := decCap }, host := [], answers := [] }

/-- The state after one step that serves a word, and `s` if there were none. -/
def after (s : State) (w : Word16) : State :=
  match step (s.issueNext w) with
  | .next t => t
  | .fault _ => s
  | .refused _ => s

/-! ### WellFormed: an ill-formed term for each check -/

theorem test_wf_accepts_a_data_word : ({ rsv := 0#5, u := 1#1, op := 1#2, d := 0xFF#8 } : FormatC).wf = true := by decide

theorem test_wf_refuses_reserved_bits : ({ rsv := 1#5, u := 0#1, op := 0#2, d := 0#8 } : FormatC).wf = false := by decide

theorem test_wf_refuses_operation_3 : ({ rsv := 0#5, u := 0#1, op := 3#2, d := 0#8 } : FormatC).wf = false := by decide

theorem test_wf_refuses_init_with_operand : ({ rsv := 0#5, u := 0#1, op := 0#2, d := 1#8 } : FormatC).wf = false := by decide

theorem test_wf_refuses_final_with_operand : ({ rsv := 0#5, u := 1#1, op := 2#2, d := 2#8 } : FormatC).wf = false := by decide

theorem test_wf_params_bounds :
    ({ encOutCap := 4, decOutCap := 1 } : Params).wf = true
    ∧ ({ encOutCap := 3, decOutCap := 1 } : Params).wf = false
    ∧ ({ encOutCap := 4, decOutCap := 0 } : Params).wf = false
    ∧ ({ encOutCap := 2 ^ 30, decOutCap := 2 ^ 30 } : Params).wf = true
    ∧ ({ encOutCap := 2 ^ 30 + 1, decOutCap := 1 } : Params).wf = false
    ∧ ({ encOutCap := 4, decOutCap := 2 ^ 30 + 1 } : Params).wf = false := by decide

/-! ### Decoding: words written out bit by bit from R73 and R75 (95_test_vectors.md 2.1) -/

theorem test_decode_encoder_words :
    decode 0b0000000000000000#16 = .command .encInit
    ∧ decode 0b0000000101000001#16 = .command (.encByte 0x41#8)
    ∧ decode 0b0000001000000000#16 = .command .encFinal := by decide

theorem test_decode_decoder_words :
    decode 0b0000010000000000#16 = .command .decInit
    ∧ decode 0b0000010101100110#16 = .command (.decChar 0x66#8)
    ∧ decode 0b0000011000000000#16 = .command .decFinal := by decide

theorem test_decode_illegal_words :
    decode 0x0001#16 = .illegal .enc .operandNotZero ∧ decode 0x0202#16 = .illegal .enc .operandNotZero
    ∧ decode 0x0300#16 = .illegal .enc .reservedOperation ∧ decode 0x0700#16 = .illegal .dec .reservedOperation
    ∧ decode 0x0800#16 = .illegal .enc .reservedBits ∧ decode 0x0C00#16 = .illegal .dec .reservedBits
    ∧ decode 0xFFFF#16 = .illegal .dec .reservedBits := by decide

/-! ### One step of each command (95_test_vectors.md 2.2, 2.5, 2.6) -/

theorem test_encInit_from_done :
    (after (machine (encAt .done 0#16 0#4 0#2 [0x4D#8, 0x41#8, 0x3D#8, 0x3D#8]) DecUnit.reset 4 1) 0x0000#16).enc
      = encAt .active 0#16 0#4 0#2 [] := by decide

theorem test_encByte_two_groups :
    (after (machine (encAt .active 0x1000#16 4#4 2#2 [0x54#8, 0x57#8]) DecUnit.reset 4 1) 0x016E#16).enc
      = encAt .active 0#16 0#4 0#2 [0x54#8, 0x57#8, 0x46#8, 0x75#8] := by decide

theorem test_encByte_overflow_keeps_everything :
    after (machine (encAt .active 0#16 0#4 0#2 [0x41#8, 0x51#8, 0x49#8, 0x44#8]) DecUnit.reset 4 1) 0x0104#16
      = machine { encAt .active 0#16 0#4 0#2 [0x41#8, 0x51#8, 0x49#8, 0x44#8] with fault := .outputOverflow }
          DecUnit.reset 4 1 := by decide

theorem test_encFinal_partial_group_and_padding :
    (after (machine (encAt .active 0xF000#16 4#4 2#2 [0x2F#8, 0x2F#8]) DecUnit.reset 4 1) 0x0200#16).enc
      = encAt .done 0#16 0#4 0#2 [0x2F#8, 0x2F#8, 0x38#8, 0x3D#8] := by decide

theorem test_encFinal_second_is_a_sequence_error :
    encStatus (after (machine (encAt .done 0#16 0#4 0#2 [0x4D#8]) DecUnit.reset 4 1) 0x0200#16).enc = 0x00000202#32 := by
  decide

theorem test_decInit_clears_the_error :
    (after (machine EncUnit.reset decFailed 4 1) 0x0400#16).dec = decAt .active 0#16 0#4 [] := by decide

theorem test_decChar_merges_stale_bits :
    (after (machine EncUnit.reset (decAt .active 0x1000#16 2#4 [0x30#8]) 4 2) 0x0541#16).dec
      = decAt .active 0#16 0#4 [0x30#8, 0x10#8] := by decide

theorem test_decChar_invalid_symbol_keeps_the_accumulator :
    decStatus (after (machine EncUnit.reset (decAt .active 0x1000#16 4#4 [0x00#8]) 4 2) 0x0521#16).dec = 0x00000053#32
    ∧ (after (machine EncUnit.reset (decAt .active 0x1000#16 4#4 [0x00#8]) 4 2) 0x0521#16).dec.acc = 0x1000#16 := by
  decide

theorem test_decFinal_leftover_bits :
    decStatus (after (machine EncUnit.reset (decAt .active 0#16 6#4 []) 4 2) 0x0600#16).dec = 0x0000009B#32
    ∧ (after (machine EncUnit.reset (decAt .active 0#16 6#4 []) 4 2) 0x0600#16).dec.info = 6#8 := by decide

theorem test_decFinal_keeps_stale_bits :
    (after (machine EncUnit.reset (decAt .active 0x1000#16 0#4 [0x30#8]) 4 2) 0x0600#16).dec
      = decAt .doneOk 0x1000#16 0#4 [0x30#8] := by decide

/-! ### Faults and reset (95_test_vectors.md 2.6) -/

theorem test_pad_underflow : decStatus (after (machine EncUnit.reset (decAt .active 0#16 0#4 []) 4 3) 0x053D#16).dec
    = 0x00000401#32 := by decide

theorem test_illegal_word_goes_before_done_err :
    (after (machine EncUnit.reset decFailed 4 1) 0x0700#16).dec.fault = .illegalCommand := by decide

theorem test_faulted_unit_ignores_an_illegal_word :
    (after (after State.reset 0x0100#16) 0x0001#16).enc.fault = .sequenceError := by decide

theorem test_reset_clears_the_fault :
    (match step { after State.reset 0x0100#16 with host := [.reset] } with
      | .next t => t.enc.fault
      | .fault _ => .sequenceError
      | .refused _ => .sequenceError) = .noFault := by decide

/-! ### The read port (95_test_vectors.md 2.7) -/

theorem test_read_port_window :
    portRead (machine (encAt .done 0#16 0#4 0#2 [0x4D#8, 0x41#8, 0x3D#8, 0x3D#8]) DecUnit.reset 4 1) 0x40000003#32 = 0x3D#32
    ∧ portRead (machine (encAt .done 0#16 0#4 0#2 [0x4D#8, 0x41#8, 0x3D#8, 0x3D#8]) DecUnit.reset 4 1) 0x40000004#32 = 0#32
    ∧ portRead (machine EncUnit.reset (decAt .doneOk 0#16 0#4 [0x4D#8, 0x61#8]) 4 2) 0x80000001#32 = 0x61#32
    ∧ portRead (machine EncUnit.reset (decAt .active 0#16 2#4 [0x4D#8, 0x61#8]) 4 2) 0x80000000#32 = 0#32
    ∧ portRead State.reset 0x12345678#32 = 0#32 := by decide

/-- The fault codes of R203 at bits 11 to 8 (R40, R42). -/
theorem test_fault_codes_on_the_read_port :
    portRead (after State.reset 0x0001#16) 0x00000000#32 = 0x00000100#32
    ∧ portRead (after State.reset 0x0200#16) 0x00000000#32 = 0x00000200#32
    ∧ portRead (after (machine (encAt .active 0#16 0#4 0#2 [0#8, 0#8, 0#8, 0#8]) DecUnit.reset 4 1) 0x0100#16)
        0x00000000#32 = 0x00000301#32
    ∧ portRead (after State.reset 0x0600#16) 0x00000003#32 = 0x00000200#32 := by decide

/-! ### The contracts and the assembler (95_test_vectors.md 2.3, 2.5, 3) -/

theorem test_encode_text : encodeText [0x4D#8, 0x61#8] = [0x54#8, 0x57#8, 0x45#8, 0x3D#8] := by decide

theorem test_decode_text :
    decodeText [0x4D#8, 0x42#8, 0x3D#8, 0x41#8] = .ok [0x30#8, 0x10#8]
    ∧ decodeText [0x41#8] = .invalidPadding 6 ∧ decodeText [0x3D#8] = .padUnderflow
    ∧ decodeText [0x41#8, 0x42#8, 0x21#8, 0x43#8] = .invalidSymbol 0x21#8 := by decide

theorem test_assemble_commands_and_comment :
    assemble "enc.run 0x30, 255 ; text\n.word 0x0C00\ndec.char ';'".toList
      = some [.command 0x0000#16, .command 0x0130#16, .command 0x01FF#16, .command 0x0200#16,
          .command 0x0C00#16, .command 0x053B#16] := by decide

theorem test_assemble_string_and_read :
    assemble "dec.run \"M=\"\nrd 0x3 -> 0x9B".toList
      = some [.command 0x0400#16, .command 0x054D#16, .command 0x053D#16, .command 0x0600#16, .read 3#32]
    ∧ assemble "enc.byte 256".toList = none := by decide

/-! ### The alphabet table of R100, byte column -/

theorem test_alphabet_table_first_half :
    (List.range 32).map (fun i => alpha (BitVec.ofNat 6 i)) =
      [0x41#8, 0x42#8, 0x43#8, 0x44#8, 0x45#8, 0x46#8, 0x47#8, 0x48#8] ++
      [0x49#8, 0x4A#8, 0x4B#8, 0x4C#8, 0x4D#8, 0x4E#8, 0x4F#8, 0x50#8] ++
      [0x51#8, 0x52#8, 0x53#8, 0x54#8, 0x55#8, 0x56#8, 0x57#8, 0x58#8] ++
      [0x59#8, 0x5A#8, 0x61#8, 0x62#8, 0x63#8, 0x64#8, 0x65#8, 0x66#8] := by decide

theorem test_alphabet_table_second_half :
    (List.range 32).map (fun i => alpha (BitVec.ofNat 6 (i + 32))) =
      [0x67#8, 0x68#8, 0x69#8, 0x6A#8, 0x6B#8, 0x6C#8, 0x6D#8, 0x6E#8] ++
      [0x6F#8, 0x70#8, 0x71#8, 0x72#8, 0x73#8, 0x74#8, 0x75#8, 0x76#8] ++
      [0x77#8, 0x78#8, 0x79#8, 0x7A#8, 0x30#8, 0x31#8, 0x32#8, 0x33#8] ++
      [0x34#8, 0x35#8, 0x36#8, 0x37#8, 0x38#8, 0x39#8, 0x2B#8, 0x2F#8] := by decide

/-! ### Witnesses: the hypotheses of each statement, met together -/

theorem encAt_inv_active_one : (encAt .active 0x4000#16 2#4 1#2 [0x54#8]).Inv 4 := by
  constructor <;> decide

theorem encAt_inv_active_two : (encAt .active 0x1000#16 4#4 2#2 [0x54#8, 0x57#8]).Inv 4 := by
  constructor <;> decide

theorem encAt_inv_active_full : (encAt .active 0#16 0#4 0#2 [0x41#8, 0x51#8, 0x49#8, 0x44#8]).Inv 4 := by
  constructor <;> decide

theorem encAt_inv_active_empty : (encAt .active 0#16 0#4 0#2 []).Inv 4 := by constructor <;> decide

theorem encReset_inv (cap : Nat) : EncUnit.reset.Inv cap := by constructor <;> simp [EncUnit.reset]

theorem decReset_inv (cap : Nat) : DecUnit.reset.Inv cap := by constructor <;> simp [DecUnit.reset]

theorem decAt_inv_active (h : BitVec 4) (hh : h = 0#4 ∨ h = 2#4 ∨ h = 4#4 ∨ h = 6#4) :
    (decAt .active 0x1000#16 h []).Inv 1 := by
  constructor <;> first | exact hh | decide | simp [decAt]

theorem decAt_inv_active_full : (decAt .active 0#16 2#4 [0x00#8]).Inv 1 := by constructor <;> decide

theorem decFailed_inv : decFailed.Inv 1 := by constructor <;> decide

/-- EncodeOfDecodeIsTheWord, StepRunsTheDecodedCommand. -/
theorem witness_decoded_word : decode 0x01FF#16 = .command (.encByte 0xFF#8) := by decide

/-- DecodingFollowsTheFields: both units, each kind of word, and an unfaulted unit for the illegal ones. -/
theorem witness_DecodingFollowsTheFields :
    (UnitId.enc = .dec ↔ (0x0001#16).getLsbD 10 = true) ∧ (UnitId.dec = .dec ↔ (0x0C00#16).getLsbD 10 = true)
    ∧ (0x0C00#16).toNat / 2048 ≠ 0 ∧ (0x0001#16).toNat / 256 % 4 = 0 ∧ (0x0001#16).toNat % 256 ≠ 0
    ∧ (0x0500#16).toNat / 256 % 4 = 1 ∧ (0x0200#16).toNat / 256 % 4 = 2 ∧ (0x0200#16).toNat % 256 = 0
    ∧ (0x07FF#16).toNat / 256 % 4 = 3
    ∧ decode 0x0001#16 = .illegal .enc .operandNotZero ∧ State.reset.enc.fault = .noFault
    ∧ decode 0x0C00#16 = .illegal .dec .reservedBits ∧ State.reset.dec.fault = .noFault := by decide

/-- IllegalWordsAreTheThreeClasses: an illegal word for each unit at reset. -/
theorem witness_IllegalWordsAreTheThreeClasses :
    decode 0xFBFF#16 = .illegal .enc .reservedBits ∧ (0xFBFF#16).getLsbD 10 = false
    ∧ decode 0x0401#16 = .illegal .dec .operandNotZero ∧ (0x0401#16).getLsbD 10 = true
    ∧ State.reset.enc.fault = .noFault ∧ State.reset.dec.fault = .noFault := by decide

/-- EventsAreServedInIssueOrder: a command and then a read are both served. -/
theorem witness_EventsAreServedInIssueOrder :
    ∃ t u, step { State.reset with host := .command 0x0000#16 :: .read 0x0#32 :: State.reset.host } = .next t
      ∧ step t = .next u ∧ u.answers = [(0x0#32, 0x1#32)] := ⟨_, _, rfl, rfl, by decide⟩

/-- IdleStepKeepsTheState. -/
theorem witness_IdleStepKeepsTheState : State.reset.host = [] := by decide

/-- ResetSetsEveryElement, FaultsAreAtomicAndSticky: both units faulted and an event without reset. -/
theorem witness_ResetSetsEveryElement :
    (HostEvent.command 0x0000#16).resets = false
    ∧ (after (after State.reset 0x0100#16) 0x0600#16).enc.fault ≠ .noFault
    ∧ (after (after State.reset 0x0100#16) 0x0600#16).dec.fault ≠ .noFault
    ∧ ∃ t, step ((after (after State.reset 0x0100#16) 0x0600#16).issueNext 0x0000#16) = .next t :=
  ⟨rfl, by decide, by decide, _, rfl⟩

/-- ResetLeavesTheHostsSide: both units faulted, a reset alone and one with a command. -/
theorem witness_ResetLeavesTheHostsSide :
    (after (after State.reset 0x0100#16) 0x0600#16).enc.fault ≠ .noFault
    ∧ (after (after State.reset 0x0100#16) 0x0600#16).dec.fault ≠ .noFault
    ∧ (∃ t, step { State.reset with host := [.reset] } = .next t)
    ∧ ∃ t, step { after (after State.reset 0x0100#16) 0x0600#16 with host := [.commandWithReset 0x0000#16] } = .next t :=
  ⟨by decide, by decide, ⟨_, rfl⟩, _, rfl⟩

/-- UnitsAreIndependent: a word for each unit. -/
theorem witness_UnitsAreIndependent :
    (∃ t, step { State.reset with host := .command 0x0000#16 :: State.reset.host } = .next t)
    ∧ unitOfWord 0x0000#16 = .enc ∧ unitOfWord 0x0400#16 = .dec := ⟨⟨_, rfl⟩, by decide, by decide⟩

/-- InterleavingsLeaveEachUnitAsAlone: program P6's first events with a read between. -/
theorem witness_InterleavingsLeaveEachUnitAsAlone :
    ∀ e ∈ [HostEvent.command 0x0400#16, .command 0x0000#16, .read 0x3#32, .command 0x0541#16], e.resets = false := by decide

/-- FaultsAreRaisedExactlyAsListed: each fault's condition is met by some unfaulted state. -/
theorem witness_FaultsAreRaisedExactlyAsListed :
    (after State.reset 0x0001#16).enc.fault = .illegalCommand
    ∧ (after State.reset 0x01FF#16).enc.fault = .sequenceError
    ∧ (after (machine (encAt .active 0#16 0#4 0#2 [0#8, 0#8, 0#8, 0#8]) DecUnit.reset 4 1) 0x0100#16).enc.fault = .outputOverflow
    ∧ (after (machine (encAt .active 0#16 2#4 1#2 [0#8, 0#8]) DecUnit.reset 4 1) 0x0200#16).enc.fault = .outputOverflow
    ∧ (after State.reset 0x07FF#16).dec.fault = .illegalCommand
    ∧ (after State.reset 0x0600#16).dec.fault = .sequenceError
    ∧ (after (machine EncUnit.reset (decAt .active 0#16 2#4 [0#8]) 4 1) 0x0541#16).dec.fault = .outputOverflow
    ∧ (after (machine EncUnit.reset (decAt .active 0#16 0#4 []) 4 1) 0x053D#16).dec.fault = .padUnderflow := by decide

/-- FaultsAreAtomicAndSticky: words for two faulted units, and a command that faults. -/
theorem witness_FaultsAreAtomicAndSticky :
    (unitOfWord 0x0000#16 = .enc ∧ unitOfWord 0x0400#16 = .dec ∧ unitOfWord 0xFFFF#16 = .dec
      ∧ (after (after State.reset 0x0100#16) 0x0600#16).enc.fault ≠ .noFault
      ∧ (after (after State.reset 0x0100#16) 0x0600#16).dec.fault ≠ .noFault)
    ∧ State.reset.enc.fault = .noFault ∧ (after State.reset 0x0100#16).enc.fault ≠ .noFault
    ∧ State.reset.dec.fault = .noFault ∧ (after State.reset 0x0600#16).dec.fault ≠ .noFault := by decide

/-- ChecksAreMadeInOrder: a state and a word for each line of R206. -/
theorem witness_ChecksAreMadeInOrder :
    (unitOfWord 0x0000#16 = .enc ∧ (after State.reset 0x0100#16).enc.fault ≠ .noFault)
    ∧ (decode 0x03FF#16 = .illegal .enc .reservedOperation ∧ State.reset.enc.fault = .noFault)
    ∧ (decode 0x0700#16 = .illegal .dec .reservedOperation ∧ decFailed.fault = .noFault)
    ∧ (decode 0x0600#16 = .command .decFinal ∧ decFailed.phase = .doneErr)
    ∧ (decode 0x0100#16 = .command (.encByte 0#8) ∧ State.reset.enc.phase ≠ .active)
    ∧ (decode 0x0500#16 = .command (.decChar 0#8) ∧ State.reset.dec.phase = .idle)
    ∧ (rev 0x00#8 = .invalid ∧ rev 0x3D#8 = .pad ∧ rev 0x2F#8 = .idx 63#6 ∧ (decAt .active 0#16 0#4 []).phase = .active)
    ∧ (decode 0x0200#16 = .command .encFinal ∧ (encAt .active 0#16 0#4 0#2 []).phase = .active) := by decide

/-- ArchitectedErrorsAreRaisedAsListed: each error is raised from an unfaulted decoder without one. -/
theorem witness_ArchitectedErrorsAreRaisedAsListed :
    (decAt .active 0#16 2#4 []).fault = .noFault ∧ (decAt .active 0#16 2#4 []).err = .noError
    ∧ (after (machine EncUnit.reset (decAt .active 0#16 2#4 []) 4 1) 0x0580#16).dec.err = .invalidSymbol
    ∧ (after (machine EncUnit.reset (decAt .active 0#16 2#4 []) 4 1) 0x0600#16).dec.err = .invalidPadding := by decide

/-- AnErrorStandsUntilInit. -/
theorem witness_AnErrorStandsUntilInit :
    decFailed.fault = .noFault ∧ decFailed.phase = .doneErr
    ∧ ∀ i ∈ [Instr.decChar 0x41#8, .decFinal], i = .decFinal ∨ ∃ c, i = .decChar c :=
  ⟨rfl, rfl, by intro i hi; simp at hi; rcases hi with rfl | rfl <;> simp⟩

/-- EncInitFollowsItsRule, DecInitFollowsItsRule: a faulted and an unfaulted unit, and the first and
last illegal word of the range. -/
theorem witness_InitFollowsItsRule :
    State.reset.enc.fault = .noFault ∧ (after State.reset 0x0100#16).enc.fault ≠ .noFault
    ∧ 0x0001 ≤ (0x0001#16).toNat ∧ (0x00FF#16).toNat ≤ 0x00FF
    ∧ State.reset.dec.fault = .noFault ∧ (after State.reset 0x0600#16).dec.fault ≠ .noFault
    ∧ 0x0401 ≤ (0x0401#16).toNat ∧ (0x04FF#16).toNat ≤ 0x04FF := by decide

/-- EncByteFollowsItsRule: a state for each clause, the buffer exactly filled or exactly too small. -/
theorem witness_EncByteFollowsItsRule :
    EncUnit.reset.Inv 4 ∧ EncUnit.reset.phase ≠ .active
    ∧ (encAt .active 0#16 0#4 0#2 [0x41#8, 0x51#8, 0x49#8, 0x44#8]).Inv 4 ∧ 4 < 4 + ((0#4).toNat + 8) / 6
    ∧ (encAt .active 0#16 0#4 0#2 []).Inv 4
    ∧ (encAt .active 0x4000#16 2#4 1#2 [0x54#8]).Inv 4
    ∧ (encAt .active 0x1000#16 4#4 2#2 [0x54#8, 0x57#8]).Inv 4 ∧ [0x54#8, 0x57#8].length + 2 ≤ 4 :=
  ⟨encReset_inv 4, by decide, encAt_inv_active_full, by decide, encAt_inv_active_empty, encAt_inv_active_one,
    encAt_inv_active_two, by decide⟩

/-- EncByteFollowsItsRule's first clause: a faulted encoder with the invariant. -/
theorem witness_faulted_encoder : ({ EncUnit.reset with fault := .sequenceError } : EncUnit).Inv 4 := by
  constructor <;> decide

/-- EncFinalFollowsItsRule: a state for each clause, the buffer exactly filled or exactly too small. -/
theorem witness_EncFinalFollowsItsRule :
    EncUnit.reset.Inv 4 ∧ EncUnit.reset.phase ≠ .active
    ∧ (encAt .active 0x4000#16 2#4 1#2 [0x41#8, 0x41#8, 0x41#8, 0x41#8, 0x54#8]).Inv 7 ∧ 7 < 5 + 3
    ∧ (encAt .active 0#16 0#4 0#2 [0x41#8, 0x51#8, 0x49#8, 0x44#8]).Inv 4
    ∧ (encAt .active 0x4000#16 2#4 1#2 [0x54#8]).Inv 4 ∧ [0x54#8].length + 3 ≤ 4
    ∧ (encAt .active 0x1000#16 4#4 2#2 [0x54#8, 0x57#8]).Inv 4 ∧ [0x54#8, 0x57#8].length + 2 ≤ 4 :=
  ⟨encReset_inv 4, by decide, by constructor <;> decide, by decide, encAt_inv_active_full, encAt_inv_active_one,
    by decide, encAt_inv_active_two, by decide⟩

/-- DecCharFollowsItsRule: a state for each clause, the buffer with room for one byte or with none. -/
theorem witness_DecCharFollowsItsRule :
    ({ DecUnit.reset with fault := .padUnderflow } : DecUnit).Inv 1
    ∧ decFailed.Inv 1 ∧ decFailed.phase = .doneErr
    ∧ DecUnit.reset.Inv 1 ∧ DecUnit.reset.phase = .idle
    ∧ (∀ h : BitVec 4, h = 0#4 ∨ h = 2#4 ∨ h = 4#4 ∨ h = 6#4 → (decAt .active 0x1000#16 h []).Inv 1)
    ∧ (decAt .active 0#16 2#4 [0x00#8]).Inv 1 ∧ [0x00#8].length = 1
    ∧ rev 0xFF#8 = .invalid ∧ rev 0x3D#8 = .pad ∧ rev 0x41#8 = .idx 0#6 :=
  ⟨by constructor <;> decide, decFailed_inv, by decide, decReset_inv 1, by decide, decAt_inv_active,
    decAt_inv_active_full, by decide, by decide, by decide, by decide⟩

/-- DecFinalFollowsItsRule: a decoder for each clause. -/
theorem witness_DecFinalFollowsItsRule :
    (after State.reset 0x0600#16).dec.fault ≠ .noFault ∧ decFailed.phase = .doneErr
    ∧ (decAt .doneOk 0#16 0#4 []).phase = .doneOk ∧ (decAt .active 0#16 6#4 []).held ≠ 0#4
    ∧ (decAt .active 0#16 0#4 []).held = 0#4 := by decide

/-- EncoderCommandsComputeEncode: ENCODE of one byte, interleaved with a decoder word and a read, in a
buffer it exactly fills (F11). -/
theorem witness_EncoderCommandsComputeEncode :
    wordsFor .enc [.command 0x0000#16, .command 0x0400#16, .command 0x0130#16, .read 0x0#32, .command 0x0200#16]
      = encodeWords [0x30#8]
    ∧ (∀ e ∈ [HostEvent.command 0x0000#16, .command 0x0400#16, .command 0x0130#16, .read 0x0#32, .command 0x0200#16],
        e.resets = false)
    ∧ encodedLength [0x30#8].length ≤ 4 ∧ State.reset.enc.fault = .noFault := by decide

/-- PartialEncodeIsAPrefixOfTheText: the same sequence cut after its byte. -/
theorem witness_PartialEncodeIsAPrefixOfTheText :
    wordsFor .enc [.command 0x0000#16, .command 0x0130#16] = (encodeWords [0x30#8]).take (1 + 1)
    ∧ encodedLength [0x30#8].length ≤ 4 := by decide

/-- TooSmallACapacityOverflows: four bytes need eight symbols (F12). -/
theorem witness_TooSmallACapacityOverflows :
    wordsFor .enc ((encodeWords [1#8, 2#8, 3#8, 4#8]).map .command) = encodeWords [1#8, 2#8, 3#8, 4#8]
    ∧ 4 < encodedLength [1#8, 2#8, 3#8, 4#8].length := by decide

/-- EncodedTextLength: a list of each length class. -/
theorem witness_EncodedTextLength :
    ([] : List Byte).length % 3 = 0 ∧ [0x4D#8].length % 3 = 1 ∧ [0x4D#8, 0x61#8].length % 3 = 2 := by decide

/-- ValidatorClassifiesEveryByte: the ranges' ends. -/
theorem witness_ValidatorClassifiesEveryByte :
    rev 0x40#8 = .invalid ∧ rev 0x41#8 = .idx 0#6 ∧ rev 0x5A#8 = .idx 25#6 ∧ rev 0x5B#8 = .invalid
    ∧ rev 0x60#8 = .invalid ∧ rev 0x61#8 = .idx 26#6 ∧ rev 0x7A#8 = .idx 51#6 ∧ rev 0x7B#8 = .invalid
    ∧ rev 0x2F#8 = .idx 63#6 ∧ rev 0x30#8 = .idx 52#6 ∧ rev 0x39#8 = .idx 61#6 ∧ rev 0x3A#8 = .invalid
    ∧ rev 0x3C#8 = .invalid ∧ rev 0x3D#8 = .pad ∧ rev 0x3E#8 = .invalid
    ∧ rev 0x2A#8 = .invalid ∧ rev 0x2B#8 = .idx 62#6 ∧ rev 0x2C#8 = .invalid ∧ rev 0x2E#8 = .invalid := by decide

/-- DecoderCommandsComputeDecode: a text for each of DECODE's outcomes, with the bytes each needs. -/
theorem witness_DecoderCommandsComputeDecode :
    decodeText [0x4D#8, 0x41#8, 0x3D#8, 0x3D#8] = .ok [0x30#8] ∧ bytesNeeded [0x4D#8, 0x41#8, 0x3D#8, 0x3D#8] ≤ 1
    ∧ decodeText [0x41#8, 0x42#8, 0x21#8] = .invalidSymbol 0x21#8 ∧ bytesNeeded [0x41#8, 0x42#8, 0x21#8] ≤ 1
    ∧ decodeText [0x41#8, 0x41#8] = .invalidPadding 4 ∧ bytesNeeded [0x41#8, 0x41#8] ≤ 1
    ∧ decodeText [0x3D#8] = .padUnderflow ∧ bytesNeeded [0x3D#8] ≤ 1
    ∧ wordsFor .dec ((decodeWords [0x3D#8]).map .command) = decodeWords [0x3D#8] := by decide

/-- DecodeOutcomesCarryTheirPayload, DecodedLengthCountsTheBits: texts with each outcome. -/
theorem witness_DecodeOutcomesCarryTheirPayload :
    decodeText [0x41#8, 0x80#8, 0x21#8] = .invalidSymbol 0x80#8 ∧ decodeText [0x41#8, 0x41#8, 0x41#8] = .invalidPadding 2
    ∧ decodeText [0x41#8, 0x3D#8, 0x41#8, 0x41#8] = .ok [0#8, 0#8] := by decide

/-- StaleBitsMergeIntoLaterOutput, MachineRoundTrip: an unfaulted machine and capacities. -/
theorem witness_MachineRoundTrip :
    State.reset.enc.fault = .noFault ∧ State.reset.dec.fault = .noFault
    ∧ (machine EncUnit.reset DecUnit.reset 4 2).params.decOutCap = 2
    ∧ encodedLength [0xFF#8].length ≤ 4 ∧ [0xFF#8].length ≤ 2 := by decide

/-- EveryStepKeepsTheInvariant, CountersNeverWrap, StatusRegisterFields: a state in the middle of an
encode and a failed decode, with a command pending. -/
theorem witness_EveryStepKeepsTheInvariant :
    (machine (encAt .active 0x4000#16 2#4 1#2 [0x54#8]) decFailed 4 1).Inv
    ∧ ({ machine (encAt .active 0x4000#16 2#4 1#2 [0x54#8]) decFailed 4 1 with host := [.command 0x0161#16] } : State).Inv
    ∧ ∃ t, step { machine (encAt .active 0x4000#16 2#4 1#2 [0x54#8]) decFailed 4 1 with host := [.command 0x0161#16] } = .next t :=
  ⟨⟨by decide, encAt_inv_active_one, decFailed_inv⟩, ⟨by decide, encAt_inv_active_one, decFailed_inv⟩, ⟨_, rfl⟩⟩

/-- CountersNeverWrap's clauses on PADSTEP: states with the invariant at the last count that faults and
the first that does not, among the counts the invariant admits. -/
theorem witness_CountersNeverWrap :
    ((machine EncUnit.reset (decAt .active 0x1000#16 0#4 []) 4 1).Inv ∧ (0#4).toNat < 2)
    ∧ ((machine EncUnit.reset (decAt .active 0x1000#16 2#4 []) 4 1).Inv ∧ 2 ≤ (2#4).toNat) :=
  ⟨⟨⟨by decide, encReset_inv 4, decAt_inv_active _ (by decide)⟩, by decide⟩,
    ⟨⟨by decide, encReset_inv 4, decAt_inv_active _ (by decide)⟩, by decide⟩⟩

/-- InvariantHoldsAtReset: the smallest and the largest capacities. -/
theorem witness_InvariantHoldsAtReset :
    ({ encOutCap := 4, decOutCap := 1 } : Params).wf = true ∧ Config.largestParams.wf = true := by decide

/-- EachStepDoesBoundedWork: a step that appends three bytes. -/
theorem witness_EachStepDoesBoundedWork :
    (after (machine (encAt .active 0#16 2#4 1#2 [0x4D#8]) DecUnit.reset 4 1) 0x0200#16).enc.out
      = [0x4D#8, 0x41#8, 0x3D#8, 0x3D#8] := by decide

/-- ReadPortAddressMap: the ends of the unmapped ranges and the last index of a window. -/
theorem witness_ReadPortAddressMap :
    7 ≤ (0x00000007#32).toNat ∧ (0x3FFFFFFF#32).toNat < 0x40000000 ∧ 0xC0000000 ≤ (0xC0000000#32).toNat
    ∧ 0xC0000000 ≤ (0xFFFFFFFF#32).toNat ∧ 2 ^ 30 - 1 < 2 ^ 30 ∧ 0x40000000 + (2 ^ 30 - 1) = 0x7FFFFFFF := by decide

/-- UnfinishedDecodeOutputIsHidden. -/
theorem witness_UnfinishedDecodeOutputIsHidden :
    (machine EncUnit.reset (decAt .active 0#16 2#4 [0x4D#8]) 4 2).dec.phase ≠ .doneOk := by decide

/-- ResultsFollowTheUnitState: a unit for each result. -/
theorem witness_ResultsFollowTheUnitState :
    encResult (encAt .done 0#16 0#4 0#2 [0x4D#8]) = .text [0x4D#8] ∧ encResult EncUnit.reset = .unfinished
    ∧ encResult (after State.reset 0x0200#16).enc = .fault .sequenceError
    ∧ decResult (decAt .doneOk 0#16 0#4 [0x30#8]) = .ok [0x30#8] ∧ decResult decFailed = .invalidSymbol 0x21#8
    ∧ decResult (after (machine EncUnit.reset (decAt .active 0#16 2#4 []) 4 1) 0x0600#16).dec = .invalidPadding 2#8
    ∧ decResult (after State.reset 0x0600#16).dec = .fault .sequenceError ∧ decResult DecUnit.reset = .unfinished := by
  decide

/-- PseudoInstructionsExpand: the ends of the printable range, and one code beyond each. -/
theorem witness_PseudoInstructionsExpand :
    (∀ c ∈ [0x20#8, 0x7E#8], 0x20 ≤ c.toNat ∧ c.toNat ≤ 0x7E) ∧ (∃ n ∈ [0x41, 0x7F], n < 0x20 ∨ 0x7E < n)
    ∧ (∃ n ∈ [0x1F], n < 0x20 ∨ 0x7E < n) := by decide

/-- AssemblerRejectsOperandsOutOfRange: the last operand in range and the first beyond. -/
theorem witness_AssemblerRejectsOperandsOutOfRange :
    (AsmLine.encByte 255).words = some [0x01FF#16] ∧ (AsmLine.encByte 256).words = none
    ∧ (AsmLine.word 65535).words = some [0xFFFF#16] := by decide

end Sys2Proof.Tests
end

section
/-! The state right after reset, and what a step in which reset takes part does (R230, R233). -/

namespace Sys2Proof.Proofs

open Sys2Proof Sys2Proof.Machine Sys2Proof.Machine.Laws

/-! ### The invariant after reset -/

/-- Reset leaves nothing pending and nothing emitted, and the phase is IDLE (R23, R230). -/
theorem encUnit_reset_inv (cap : Nat) : EncUnit.reset.Inv cap where
  mod3_lt := by decide
  pend_eq := by decide
  acc_low := by decide
  out_le := Nat.zero_le cap
  out_text := by decide
  idle_empty := by decide
  active_out := by decide
  done_out := by decide

/-- Reset leaves no bit held, no output and no error, and the phase is IDLE (R30, R230). -/
theorem decUnit_reset_inv (cap : Nat) : DecUnit.reset.Inv cap where
  held_cases := by decide
  acc_low := by decide
  out_le := Nat.zero_le cap
  err_iff := by decide
  info_none := by decide
  info_symbol := by decide
  info_padding := by decide
  err_empty := by decide
  ok_held := by decide
  idle_empty := by decide

/-- The reset units fit any capacities, so the hardware reset needs only those within R7's bounds. -/
theorem resetUnits_inv {s : State} (h : s.params.wf = true) : (resetUnits s).Inv where
  params_wf := h
  enc_inv := encUnit_reset_inv _
  dec_inv := decUnit_reset_inv _

theorem resetWith_inv {p : Params} (h : p.wf = true) : (State.resetWith p).Inv :=
  resetUnits_inv (s := State.resetWith p) h

/-- The capacities `State.reset` carries lie within R7's bounds. -/
theorem largestParams_wf : Config.largestParams.wf = true := by decide

/-- Settles O41: the units' reset values meet the invariant for every capacity, and the capacities of
`State.reset` (log entry 2) are among those R7 admits. -/
theorem invariantHoldsAtReset : Obligations.InvariantHoldsAtReset :=
  ⟨fun _ h => resetWith_inv h, resetWith_inv largestParams_wf⟩

/-! ### Steps in which reset takes part -/

theorem step_reset (s : State) (rest : List HostEvent) :
    step { s with host := .reset :: rest } = .next (resetUnits { s with host := rest }) :=
  step_cons .reset rest { s with host := .reset :: rest } rfl

/-- Reset with a command: the command's step, after which the reset is the oldest event (R233). -/
theorem step_commandWithReset (s : State) (w : Word16) (rest : List HostEvent) :
    step { s with host := .commandWithReset w :: rest } = .next
      { s with enc := wordEnc w s.params s.enc, dec := wordDec w s.params s.dec, host := .reset :: rest } := by
  rw [step_cons _ _ _ rfl]
  exact serveCommand_eq w { s with host := .reset :: rest }

/-- Settles O51: a reset writes the two units only, and the command's step before it ignores a faulted
unit as every command does (R206). -/
theorem resetLeavesTheHostsSide : Obligations.ResetLeavesTheHostsSide := by
  constructor
  · intro s t h
    rw [step_reset] at h
    cases h
    exact ⟨rfl, rfl, rfl⟩
  · intro s t w h
    rw [step_commandWithReset] at h
    cases h
    exact ⟨fun hf => congrArg EncUnit.fault (wordEnc_of_fault hf),
      fun hf => congrArg DecUnit.fault (wordDec_of_fault hf)⟩

end Sys2Proof.Proofs
end

section
/-! What the datapath blocks do to the counters, the accumulators and the outputs, at every value of
the counters (R104, R135, R136). -/

namespace Sys2Proof.Proofs

open Sys2Proof Sys2Proof.Machine Sys2Proof.Machine.Laws

/-! ### EXTRACT -/

theorem emitGroup_pend_toNat {u : EncUnit} (h : 6 ≤ u.pend.toNat) :
    u.emitGroup.pend.toNat = u.pend.toNat - 6 := by
  rw [EncUnit.emitGroup_pend, BitVec.toNat_sub_of_le (by simpa [BitVec.le_def] using h)]
  rfl

/-- EXTRACT by the number of whole groups pending, which a 4-bit count holds two of at most. -/
theorem extract_cases (u : EncUnit) :
    (u.pend.toNat / 6 = 0 ∧ u.extract = u)
    ∨ (u.pend.toNat / 6 = 1 ∧ u.extract = u.emitGroup)
    ∨ (u.pend.toNat / 6 = 2 ∧ u.extract = u.emitGroup.emitGroup) := by
  rw [extract_eq, ← EncUnit.emitGroup_pend]
  by_cases h : 6 ≤ u.pend.toNat
  · have hp := emitGroup_pend_toNat h
    by_cases h2 : 6 ≤ u.emitGroup.pend.toNat
    · exact .inr (.inr ⟨by omega, by rw [if_pos h, if_pos h2]⟩)
    · exact .inr (.inl ⟨by omega, by rw [if_pos h, if_neg h2]⟩)
  · exact .inl ⟨by omega, if_neg h⟩

theorem extract_pend (u : EncUnit) : u.extract.pend.toNat = u.pend.toNat % 6 := by
  obtain ⟨hn, he⟩ | ⟨hn, he⟩ | ⟨hn, he⟩ := extract_cases u <;> rw [he]
  · omega
  · rw [emitGroup_pend_toNat (by omega)]; omega
  · have hp := emitGroup_pend_toNat (u := u) (by omega)
    rw [emitGroup_pend_toNat (by omega)]; omega

theorem extract_acc (u : EncUnit) : u.extract.acc = u.acc <<< (6 * (u.pend.toNat / 6)) := by
  obtain ⟨hn, he⟩ | ⟨hn, he⟩ | ⟨hn, he⟩ := extract_cases u <;> rw [he, hn]
  · simp
  · rfl
  · simp [← BitVec.shiftLeft_add]

theorem extract_out_length (u : EncUnit) :
    u.extract.out.length = u.out.length + u.pend.toNat / 6 := by
  obtain ⟨hn, he⟩ | ⟨hn, he⟩ | ⟨hn, he⟩ := extract_cases u <;> rw [he, hn] <;> simp

/-- EXTRACT appends symbols of the alphabet only (R104). -/
theorem mem_extract_out {u : EncUnit} {c : Byte} (h : c ∈ u.extract.out) :
    c ∈ u.out ∨ isAlphabetByte c = true := by
  obtain ⟨-, he⟩ | ⟨-, he⟩ | ⟨-, he⟩ := extract_cases u <;> rw [he] at h
  · exact .inl h
  · obtain hc | rfl := by simpa using h
    · exact .inl hc
    · exact .inr (isAlphabetByte_alpha _)
  · obtain hc | rfl | rfl := by simpa using h
    · exact .inl hc
    · exact .inr (isAlphabetByte_alpha _)
    · exact .inr (isAlphabetByte_alpha _)

/-- The bits below the pending ones are the same before EXTRACT and after it (R25, R104). -/
theorem extract_acc_shiftLeft_pend (u : EncUnit) :
    u.extract.acc <<< u.extract.pend.toNat = u.acc <<< u.pend.toNat := by
  rw [extract_acc, extract_pend, ← BitVec.shiftLeft_add, Nat.div_add_mod]

theorem nextMod3_toNat (m : BitVec 2) : (nextMod3 m).toNat = (m.toNat + 1) % 3 := by
  revert m; decide

/-! ### RECON -/

theorem recon_held (u : DecUnit) : u.recon.held.toNat = u.held.toNat % 8 := by
  rw [recon_eq]
  split
  · rw [DecUnit.emitByte_held, BitVec.toNat_sub_of_le (by simpa [BitVec.le_def])]
    simp only [BitVec.toNat_ofNat]
    omega
  · omega

theorem recon_acc (u : DecUnit) : u.recon.acc = u.acc <<< (8 * (u.held.toNat / 8)) := by
  rw [recon_eq]
  split
  · rw [show u.held.toNat / 8 = 1 by omega]; rfl
  · rw [show u.held.toNat / 8 = 0 by omega]; simp

theorem recon_out_length (u : DecUnit) :
    u.recon.out.length = u.out.length + u.held.toNat / 8 := by
  rw [recon_eq]
  split
  · rw [show u.held.toNat / 8 = 1 by omega]; simp
  · rw [show u.held.toNat / 8 = 0 by omega]; simp

/-- RECON writes only the output, the accumulator and the count (R136). -/
theorem recon_frame (u : DecUnit) :
    u.recon.phase = u.phase ∧ u.recon.err = u.err ∧ u.recon.info = u.info ∧ u.recon.fault = u.fault := by
  rw [recon_eq]
  split
  · exact ⟨rfl, rfl, rfl, rfl⟩
  · exact ⟨rfl, rfl, rfl, rfl⟩

/-! ### PADSTEP -/

theorem padStep_held_toNat {u : DecUnit} (h : 2 ≤ u.held.toNat) :
    u.padStep.held.toNat = u.held.toNat - 2 := by
  rw [DecUnit.padStep, if_neg (by omega), BitVec.toNat_sub_of_le (by simpa [BitVec.le_def])]
  rfl

end Sys2Proof.Proofs
end

section
/-! Every command keeps its unit's invariant, and so does every step (R25 to R28, R31 to R36, R102). -/

namespace Sys2Proof.Proofs

open Sys2Proof Sys2Proof.Machine Sys2Proof.Machine.Laws

/-! ### The encoder's commands -/

section Encoder

variable {p : Params} {cap : Nat} {u : EncUnit}

/-- The three pairs of counters the invariant admits (R26, R27). -/
theorem encInv_counters (h : u.Inv cap) :
    (u.pend = 0#4 ∧ u.mod3 = 0#2) ∨ (u.pend = 2#4 ∧ u.mod3 = 1#2) ∨ (u.pend = 4#4 ∧ u.mod3 = 2#2) := by
  have key : ∀ (m : BitVec 2) (n : BitVec 4), m.toNat < 3 → n.toNat = 2 * m.toNat →
      (n = 0#4 ∧ m = 0#2) ∨ (n = 2#4 ∧ m = 1#2) ∨ (n = 4#4 ∧ m = 2#2) := by decide
  exact key _ _ h.mod3_lt h.pend_eq

theorem accept_pend_toNat (h : u.Inv cap) (d : Byte) : (u.accept d).pend.toNat = u.pend.toNat + 8 := by
  have hm := h.mod3_lt
  have hp := h.pend_eq
  rw [EncUnit.accept_pend, BitVec.toNat_add_of_lt (by simp; omega)]
  rfl

/-- Nothing stands below the pending bits and the accepted byte (R25, R107). -/
theorem accept_acc_low (h : u.Inv cap) (d : Byte) :
    (u.accept d).acc <<< (u.accept d).pend.toNat = 0#16 := by
  have hm := h.mod3_lt
  have hp := h.pend_eq
  have hacc : u.acc <<< (u.pend.toNat + 8) = 0#16 := by rw [BitVec.shiftLeft_add, h.acc_low]; rfl
  rw [accept_pend_toNat h, EncUnit.accept_acc, BitVec.shiftLeft_or_distrib, hacc, ← BitVec.shiftLeft_add,
    BitVec.shiftLeft_eq_zero (by omega)]
  rfl

theorem encRaise_inv (h : u.Inv cap) (f : EncFault) : (u.raise f).Inv cap := { h with }

theorem encInitBody_inv : (encInitBody p u).Inv cap where
  mod3_lt := by simp [encInitBody]
  pend_eq := by simp [encInitBody]
  acc_low := by simp [encInitBody]
  out_le := Nat.zero_le cap
  out_text := by simp [encInitBody]
  idle_empty := by simp [encInitBody]
  active_out := by simp [encInitBody]
  done_out := by simp [encInitBody]

/-- Accepting a byte that fits: EXTRACT leaves two bits for each byte mod 3, and each symbol it emits
is an alphabet byte. -/
theorem accept_extract_inv (h : u.Inv cap) (d : Byte) (hact : u.phase = .active)
    (hfit : u.out.length + symbolsCompleted u.pend ≤ cap) : (u.accept d).extract.Inv cap := by
  obtain ⟨hphase, hmod3, -⟩ := extract_frame (u.accept d)
  have hm := h.mod3_lt
  have hp := h.pend_eq
  obtain ⟨halpha, hlen⟩ := h.active_out hact
  have hmod3' : (u.accept d).extract.mod3.toNat = (u.mod3.toNat + 1) % 3 := by
    rw [hmod3, EncUnit.accept_mod3, nextMod3_toNat]
  have hpend' : (u.accept d).extract.pend.toNat = (u.pend.toNat + 8) % 6 := by
    rw [extract_pend, accept_pend_toNat h]
  have hlen' : (u.accept d).extract.out.length = u.out.length + (u.pend.toNat + 8) / 6 := by
    rw [extract_out_length, accept_pend_toNat h, EncUnit.accept_out]
  have hout : ∀ c ∈ (u.accept d).extract.out, isAlphabetByte c = true := fun c hc =>
    (mem_extract_out hc).elim (halpha c) id
  have hphase' : (u.accept d).extract.phase = .active := hphase.trans hact
  exact {
    mod3_lt := by omega
    pend_eq := by omega
    acc_low := by rw [extract_acc_shiftLeft_pend, accept_acc_low h]
    out_le := hlen'.trans_le hfit
    out_text := fun c hc => isTextByte_of_isAlphabetByte (hout c hc)
    idle_empty := by simp [hphase']
    active_out := fun _ => ⟨hout, by omega⟩
    done_out := by simp [hphase'] }

theorem encByteBody_inv (h : u.Inv p.encOutCap) (d : Byte) : (encByteBody d p u).Inv p.encOutCap := by
  unfold encByteBody
  split
  · exact encRaise_inv h _
  · next hact =>
    split
    · exact encRaise_inv h _
    · next hfit => exact accept_extract_inv h d (not_not.mp hact) (not_lt.mp hfit)

/-- ENC_FINAL appends an alphabet byte or none, and the padding byte (R108). -/
theorem isTextByte_of_mem_tail {c : Byte} (hc : c ∈ u.tail) : isTextByte c = true := by
  obtain hc | hc := List.mem_append.mp hc
  · split at hc
    · obtain rfl := List.mem_singleton.mp hc
      exact isTextByte_of_isAlphabetByte (isAlphabetByte_alpha _)
    · simp at hc
  · rw [List.eq_of_mem_replicate hc]
    exact isTextByte_padByte

/-- The bytes ENC_FINAL appends complete the last group of four symbols (R102, R108). -/
theorem tail_completes_group (h : u.Inv cap) : (u.mod3.toNat + u.tail.length) % 4 = 0 := by
  unfold EncUnit.tail
  obtain ⟨hp, hm⟩ | ⟨hp, hm⟩ | ⟨hp, hm⟩ := encInv_counters h <;> simp [hp, hm, padCount]

theorem encFinalBody_inv (h : u.Inv p.encOutCap) : (encFinalBody p u).Inv p.encOutCap := by
  unfold encFinalBody
  split
  · exact encRaise_inv h _
  · next hact =>
    split
    · exact encRaise_inv h _
    · next hfit =>
      obtain ⟨-, hlen⟩ := h.active_out (not_not.mp hact)
      have htail := tail_completes_group h
      exact {
        mod3_lt := by simp
        pend_eq := by simp
        acc_low := by simp
        out_le := by simpa using hfit
        out_text := fun c hc => (List.mem_append.mp hc).elim (h.out_text c) isTextByte_of_mem_tail
        idle_empty := by simp
        active_out := by simp
        done_out := fun _ => ⟨by rw [List.length_append]; omega, rfl⟩ }

/-- Whatever word is served, the encoder keeps its invariant. -/
theorem wordEnc_inv (w : Word16) (h : u.Inv p.encOutCap) : (wordEnc w p u).Inv p.encOutCap := by
  unfold wordEnc
  split
  · split
    · exact encRaise_inv h _
    · exact encInitBody_inv
    · exact encByteBody_inv h _
    · exact encFinalBody_inv h
    · exact h
  · exact h

end Encoder

/-! ### The decoder's commands -/

section Decoder

variable {p : Params} {cap : Nat} {u v : DecUnit}

theorem decInv_held_le (h : u.Inv cap) : u.held.toNat ≤ 6 := by
  obtain hh | hh | hh | hh := h.held_cases <;> simp [hh]

theorem insert_held_toNat (h : u.Inv cap) (v : Sextet) : (u.insert v).held.toNat = u.held.toNat + 6 := by
  have hle := decInv_held_le h
  rw [DecUnit.insert_held, BitVec.toNat_add_of_lt (by simp; omega)]
  rfl

theorem bytesCompleted_eq (h : u.Inv cap) : bytesCompleted u.held = (u.held.toNat + 6) / 8 := by
  obtain hh | hh | hh | hh := h.held_cases <;> simp [hh, bytesCompleted]

/-- A decode in progress that goes on without an error has only its count, its accumulator and its
output to answer for. -/
theorem decInv_of_active (h : u.Inv cap) (hact : u.phase = .active) (hphase : v.phase = u.phase)
    (herr : v.err = u.err) (hinfo : v.info = u.info)
    (hheld : v.held = 0#4 ∨ v.held = 2#4 ∨ v.held = 4#4 ∨ v.held = 6#4) (hacc : v.acc <<< 6 = 0#16)
    (hout : v.out.length ≤ cap) : v.Inv cap := by
  have hvact : v.phase = .active := hphase.trans hact
  have hnone : u.err = .noError := by
    by_contra hne
    simp [h.err_iff.mp hne] at hact
  have hvnone : v.err = .noError := herr.trans hnone
  exact {
    held_cases := hheld
    acc_low := hacc
    out_le := hout
    err_iff := by simp [hvact, hvnone]
    info_none := fun _ => hinfo.trans (h.info_none hnone)
    info_symbol := by simp [hvnone]
    info_padding := by simp [hvnone]
    err_empty := by simp [hvact]
    ok_held := by simp [hvact]
    idle_empty := by simp [hvact] }

theorem decRaise_inv (h : u.Inv cap) (f : DecFault) : (u.raise f).Inv cap := { h with }

theorem decInitBody_inv : (decInitBody p u).Inv cap where
  held_cases := .inl rfl
  acc_low := by simp [decInitBody]
  out_le := Nat.zero_le cap
  err_iff := by simp [decInitBody]
  info_none := fun _ => rfl
  info_symbol := by simp [decInitBody]
  info_padding := by simp [decInitBody]
  err_empty := by simp [decInitBody]
  ok_held := by simp [decInitBody]
  idle_empty := by simp [decInitBody]

/-- An architected error keeps the invariant when its payload is the one R36 gives its kind. -/
theorem fail_inv (h : u.Inv cap) {e : DecErr} {info : Byte} (herr : e ≠ .noError)
    (hsym : e = .invalidSymbol → rev info = .invalid)
    (hpad : e = .invalidPadding → info = u.held.setWidth 8 ∧ u.held ≠ 0#4) : (u.fail e info).Inv cap where
  held_cases := h.held_cases
  acc_low := h.acc_low
  out_le := Nat.zero_le cap
  err_iff := by simp [herr]
  info_none := fun hne => absurd hne herr
  info_symbol := hsym
  info_padding := hpad
  err_empty := fun _ => rfl
  ok_held := by simp
  idle_empty := by simp

/-- The inserted symbol ends at bit 10 or above once RECON has run, which shifts a whole byte out
whenever INSERT put the symbol lower (R134, R136). -/
theorem insert_recon_acc_low (h : u.Inv cap) (v : Sextet) : (u.insert v).recon.acc <<< 6 = 0#16 := by
  have hacc (n : Nat) : u.acc <<< (n + 6) = 0#16 := by
    rw [Nat.add_comm, BitVec.shiftLeft_add, h.acc_low, BitVec.zero_shiftLeft]
  have hsym : 16 ≤ 10 - u.held.toNat + (8 * ((u.held.toNat + 6) / 8) + 6) := by
    obtain hh | hh | hh | hh := h.held_cases <;> simp [hh]
  rw [recon_acc, ← BitVec.shiftLeft_add, insert_held_toNat h, DecUnit.insert_acc,
    BitVec.shiftLeft_or_distrib, hacc, ← BitVec.shiftLeft_add, BitVec.shiftLeft_eq_zero hsym]
  rfl

/-- A symbol whose byte, if it completes one, fits. -/
theorem insert_recon_inv (h : u.Inv cap) (v : Sextet) (hact : u.phase = .active)
    (hfit : u.out.length + bytesCompleted u.held ≤ cap) : (u.insert v).recon.Inv cap := by
  obtain ⟨hphase, herr, hinfo, -⟩ := recon_frame (u.insert v)
  refine decInv_of_active h hact hphase herr hinfo ?_ (insert_recon_acc_low h v) ?_
  · have hheld : (u.insert v).recon.held.toNat = (u.held.toNat + 6) % 8 := by
      rw [recon_held, insert_held_toNat h]
    simp only [← BitVec.toNat_inj, hheld]
    obtain hh | hh | hh | hh := h.held_cases <;> simp [hh]
  · rw [recon_out_length, insert_held_toNat h, DecUnit.insert_out, ← bytesCompleted_eq h]
    exact hfit

/-- After PADSTEP fewer than eight bits are held, so that RECON emits nothing (R135, R136). -/
theorem padStep_recon_inv (h : u.Inv cap) (hact : u.phase = .active) (hheld : 2 ≤ u.held.toNat) :
    u.padStep.recon.Inv cap := by
  have hpad : u.padStep = { u with held := u.held - 2#4 } := if_neg (by omega)
  have hheld' : u.held - 2#4 = 0#4 ∨ u.held - 2#4 = 2#4 ∨ u.held - 2#4 = 4#4 := by
    obtain hh | hh | hh | hh := h.held_cases <;> simp [hh] at hheld ⊢
  have hlt : ¬ 8 ≤ (u.held - 2#4).toNat := by
    obtain hh | hh | hh := hheld' <;> simp [hh]
  rw [hpad, recon_eq, if_neg hlt]
  exact decInv_of_active h hact rfl rfl rfl (hheld'.imp_right (.imp_right .inl)) h.acc_low h.out_le

theorem decCharActive_inv (h : u.Inv p.decOutCap) (c : Byte) (hact : u.phase = .active) :
    (decCharActive c p u).Inv p.decOutCap := by
  unfold decCharActive
  split
  · next hrev => exact fail_inv h (by simp) (fun _ => hrev) (by simp)
  · split
    · next hlt =>
      rw [DecUnit.padStep, if_pos hlt]
      exact decRaise_inv h _
    · next hle => exact padStep_recon_inv h hact (not_lt.mp hle)
  · split
    · exact decRaise_inv h _
    · next hfit => exact insert_recon_inv h _ hact (not_lt.mp hfit)

theorem decCharBody_inv (h : u.Inv p.decOutCap) (c : Byte) : (decCharBody c p u).Inv p.decOutCap := by
  unfold decCharBody
  split
  · exact h
  · split
    · exact decRaise_inv h _
    · next hact => exact decCharActive_inv h c (not_not.mp hact)

theorem decFinalBody_inv (h : u.Inv cap) : (decFinalBody p u).Inv cap := by
  unfold decFinalBody
  split
  · exact h
  · next hne =>
    split
    · exact decRaise_inv h _
    · split
      · next hheld => exact fail_inv h (by simp) (by simp) (fun _ => ⟨rfl, hheld⟩)
      · next hheld =>
        exact { h with
          err_iff := by simpa [hne] using h.err_iff
          err_empty := by simp
          ok_held := fun _ => not_not.mp hheld
          idle_empty := by simp }

/-- Whatever word is served, the decoder keeps its invariant. -/
theorem wordDec_inv (w : Word16) (h : u.Inv p.decOutCap) : (wordDec w p u).Inv p.decOutCap := by
  unfold wordDec
  split
  · split
    · exact decRaise_inv h _
    · exact decInitBody_inv
    · exact decCharBody_inv h _
    · exact decFinalBody_inv h
    · exact h
  · exact h

end Decoder

/-! ### Steps -/

/-- Settles O40, by the five things a step can do: a word keeps each unit's invariant, a read changes
no unit, and a reset starts both anew. -/
theorem everyStepKeepsTheInvariant : Obligations.EveryStepKeepsTheInvariant := by
  intro s t h hs
  obtain ⟨-, he⟩ | ⟨w, rest, -, he⟩ | ⟨a, rest, -, he⟩ | ⟨rest, -, he⟩ | ⟨w, rest, -, he⟩ := step_cases s
  all_goals
    rw [he] at hs
    cases hs
  · exact h
  · exact ⟨h.params_wf, wordEnc_inv w h.enc_inv, wordDec_inv w h.dec_inv⟩
  · exact ⟨h.params_wf, h.enc_inv, h.dec_inv⟩
  · exact ⟨h.params_wf, encUnit_reset_inv _, decUnit_reset_inv _⟩
  · exact ⟨h.params_wf, wordEnc_inv w h.enc_inv, wordDec_inv w h.dec_inv⟩

/-! ### The counters -/

/-- Settles O42: the invariant bounds `enc_pend` by 4 and `dec_held` by 6, so that neither sum reaches
16, and no subtraction goes below 0. -/
theorem countersNeverWrap : Obligations.CountersNeverWrap := by
  intro s d v h
  have hm := h.enc_inv.mod3_lt
  have hp := h.enc_inv.pend_eq
  have hle := decInv_held_le h.dec_inv
  refine ⟨⟨accept_pend_toNat h.enc_inv d, by omega⟩, ⟨insert_held_toNat h.dec_inv v, by omega⟩, ?_, ?_,
    padStep_held_toNat, fun hlt => ?_⟩
  · rw [extract_pend, accept_pend_toNat h.enc_inv]
  · rw [recon_held, insert_held_toNat h.dec_inv]
  · rw [DecUnit.padStep, if_pos hlt, DecUnit.raise_held]

end Sys2Proof.Proofs
end

section
/-! A word for one unit neither reads nor writes the other (R20). -/

namespace Sys2Proof.Proofs

open Sys2Proof Sys2Proof.Machine Sys2Proof.Machine.Laws

/-- A word's step: each unit by its own function of the word, the capacities and itself. -/
theorem step_command (s : State) (w : Word16) (rest : List HostEvent) :
    step { s with host := .command w :: rest } = .next
      { s with enc := wordEnc w s.params s.enc, dec := wordDec w s.params s.dec, host := rest } := by
  rw [step_cons _ _ _ rfl]
  exact serveCommand_eq w { s with host := rest }

theorem step_command_of_enc {w : Word16} (h : unitOfWord w = .enc) (s : State) (rest : List HostEvent) :
    step { s with host := .command w :: rest } = .next
      { s with enc := wordEnc w s.params s.enc, host := rest } := by
  rw [step_command, wordDec_of_enc h]

theorem step_command_of_dec {w : Word16} (h : unitOfWord w = .dec) (s : State) (rest : List HostEvent) :
    step { s with host := .command w :: rest } = .next
      { s with dec := wordDec w s.params s.dec, host := rest } := by
  rw [step_command, wordEnc_of_dec h]

/-- Settles O15: the selected unit's next value is a function of the word, the capacities and that unit,
and nothing else changes. -/
theorem unitsAreIndependent : Obligations.UnitsAreIndependent := by
  intro s t w hs
  constructor
  · intro hu
    rw [step_command_of_enc hu] at hs
    cases hs
    exact ⟨⟨rfl, rfl, rfl, rfl⟩, fun other => step_command_of_enc hu { s with dec := other } s.host⟩
  · intro hu
    rw [step_command_of_dec hu] at hs
    cases hs
    exact ⟨⟨rfl, rfl, rfl, rfl⟩, fun other => step_command_of_dec hu { s with enc := other } s.host⟩

end Sys2Proof.Proofs
end

section
/-! What the host can read: the status registers' fields (R40, R42), and nothing of a decode that has not
succeeded (R34, R43). -/

namespace Sys2Proof.Proofs

open Sys2Proof Sys2Proof.Machine Sys2Proof.Machine.Laws

/-- The four fields of a status register and its zero bits, whatever the fields hold (R40, R42). -/
theorem statusWord_fields (fault : BitVec 4) (mid : BitVec 2) (count : BitVec 4) (phase : BitVec 2) :
    (0#20 ++ fault ++ mid ++ count ++ phase).extractLsb' 0 2 = phase
    ∧ (0#20 ++ fault ++ mid ++ count ++ phase).extractLsb' 2 4 = count
    ∧ (0#20 ++ fault ++ mid ++ count ++ phase).extractLsb' 6 2 = mid
    ∧ (0#20 ++ fault ++ mid ++ count ++ phase).extractLsb' 8 4 = fault
    ∧ (0#20 ++ fault ++ mid ++ count ++ phase).extractLsb' 12 20 = 0#20 := by
  refine ⟨BitVec.extractLsb'_append_eq_right, ?_, ?_, ?_, ?_⟩
  all_goals rw [BitVec.extractLsb'_append_eq_of_le (by decide)]
  · exact BitVec.extractLsb'_append_eq_right
  all_goals rw [BitVec.extractLsb'_append_eq_of_le (by decide)]
  · exact BitVec.extractLsb'_append_eq_right
  all_goals rw [BitVec.extractLsb'_append_eq_of_le (by decide)]
  · exact BitVec.extractLsb'_append_eq_right
  · exact BitVec.extractLsb'_append_eq_left

/-- ENC_STATUS at its read address (R40). -/
theorem portRead_encStatus_fields (s : State) :
    (portRead s 0x00000000#32).extractLsb' 0 2 = s.enc.phase.code
    ∧ (portRead s 0x00000000#32).extractLsb' 2 4 = s.enc.pend
    ∧ (portRead s 0x00000000#32).extractLsb' 6 2 = s.enc.mod3
    ∧ (portRead s 0x00000000#32).extractLsb' 8 4 = s.enc.fault.code
    ∧ (portRead s 0x00000000#32).extractLsb' 12 20 = 0#20 :=
  statusWord_fields _ _ _ _

/-- DEC_STATUS at its read address (R42). -/
theorem portRead_decStatus_fields (s : State) :
    (portRead s 0x00000003#32).extractLsb' 0 2 = s.dec.phase.code
    ∧ (portRead s 0x00000003#32).extractLsb' 2 4 = s.dec.held
    ∧ (portRead s 0x00000003#32).extractLsb' 6 2 = s.dec.err.code
    ∧ (portRead s 0x00000003#32).extractLsb' 8 4 = s.dec.fault.code
    ∧ (portRead s 0x00000003#32).extractLsb' 12 20 = 0#20 :=
  statusWord_fields _ _ _ _

theorem encStatus_reset : encStatus EncUnit.reset = 0#32 := by decide

theorem decStatus_reset : decStatus DecUnit.reset = 0#32 := by decide

theorem encPhase_code_le (x : EncPhase) : x.code.toNat ≤ 2 := by cases x <;> decide

theorem encFault_code_le (x : EncFault) : x.code.toNat ≤ 3 := by cases x <;> decide

theorem decErr_code_le (x : DecErr) : x.code.toNat ≤ 2 := by cases x <;> decide

theorem decFault_code_le (x : DecFault) : x.code.toNat ≤ 4 := by cases x <;> decide

/-- Settles O46: each field is read back from its place in the word, and the invariant bounds the
counters. -/
theorem statusRegisterFields : Obligations.StatusRegisterFields := by
  refine ⟨fun s => ?_, fun s h => ?_, fun p => ⟨encStatus_reset, decStatus_reset⟩⟩
  · obtain ⟨hep, hec, hem, hef, hez⟩ := portRead_encStatus_fields s
    exact ⟨hep, hec, hem, hef, hez, portRead_decStatus_fields s⟩
  · obtain ⟨hep, hec, hem, hef, -⟩ := portRead_encStatus_fields s
    obtain ⟨-, hdc, hde, hdf, -⟩ := portRead_decStatus_fields s
    rw [hep, hec, hem, hef, hdc, hde, hdf]
    refine ⟨encPhase_code_le _, ?_, Nat.lt_succ_iff.mp h.enc_inv.mod3_lt, encFault_code_le _, ?_,
      decErr_code_le _, decFault_code_le _⟩
    · obtain ⟨hp, -⟩ | ⟨hp, -⟩ | ⟨hp, -⟩ := encInv_counters h.enc_inv <;> simp [hp]
    · simpa using h.dec_inv.held_cases

/-- A read sees the decoder's output through the gate of DONE_OK only (R43, R55). -/
theorem portRead_congr {s t : State} (henc : s.enc = t.enc) (hstatus : decStatus s.dec = decStatus t.dec)
    (hacc : s.dec.acc = t.dec.acc) (hinfo : s.dec.info = t.dec.info)
    (hout : s.dec.visibleOut = t.dec.visibleOut) (addr : Word32) : portRead s addr = portRead t addr := by
  simp only [portRead, henc, hstatus, hacc, hinfo, hout]

theorem visibleOut_setOut {u : DecUnit} (h : u.phase ≠ .doneOk) (other : List Byte) :
    ({ u with out := other } : DecUnit).visibleOut = u.visibleOut := by
  simp [DecUnit.visibleOut, h]

/-- Settles O47: outside DONE_OK the visible output is empty, whatever bytes have been extracted. -/
theorem unfinishedDecodeOutputIsHidden : Obligations.UnfinishedDecodeOutputIsHidden := by
  intro s other addr h
  apply portRead_congr
  case hout => exact visibleOut_setOut h other
  all_goals rfl

end Sys2Proof.Proofs
end

section
/-! The host's side: one event a step in issue order (R57, R58), reads that change no unit (R56), and
interleavings in which each unit sees its own words only (R59). -/

namespace Sys2Proof.Proofs

open Sys2Proof Sys2Proof.Machine Sys2Proof.Machine.Laws

/-! ### One event a step -/

/-- A read's value does not depend on what is pending or on the answers already given (R55). -/
theorem portRead_setHostSide (s : State) (pending : List HostEvent) (given : List (Word32 × Word32))
    (addr : Word32) : portRead { s with host := pending, answers := given } addr = portRead s addr :=
  portRead_congr rfl rfl rfl rfl rfl addr

theorem step_read (s : State) (addr : Word32) (rest : List HostEvent) :
    step { s with host := .read addr :: rest } = .next
      { s with host := rest, answers := s.answers ++ [(addr, portRead s addr)] } := by
  rw [step_cons _ _ _ rfl, ← portRead_setHostSide s rest s.answers addr]
  rfl

/-- Serving an event only takes it off, or turns a command with reset into a reset: what is issued
behind the pending events stays behind them. -/
theorem step_issue_behind {s t : State} {e : HostEvent} {rest : List HostEvent}
    (h : step { s with host := e :: rest } = .next t) (f : HostEvent) :
    step { s with host := e :: (rest ++ [f]) } = .next { t with host := t.host ++ [f] } := by
  cases e with
  | command w =>
    rw [step_command] at h ⊢
    cases h; rfl
  | read addr =>
    rw [step_read] at h ⊢
    cases h; rfl
  | reset =>
    rw [step_reset] at h ⊢
    cases h; rfl
  | commandWithReset w =>
    rw [step_commandWithReset] at h ⊢
    cases h; rfl

/-- Settles O8: a step leaves the events behind the oldest one as they are, so the read behind a command
is served next, from the state `t` that the command left. -/
theorem eventsAreServedInIssueOrder : Obligations.EventsAreServedInIssueOrder := by
  refine ⟨fun s t e f h => step_issue_behind h f, fun s t u w addr hcommand hread => ?_⟩
  rw [step_command] at hcommand
  cases hcommand
  have hanswer := step_read
    { s with enc := wordEnc w s.params s.enc, dec := wordDec w s.params s.dec } addr s.host
  cases hanswer.symm.trans hread
  exact ⟨rfl, rfl⟩

/-- Settles O7: the step serves the word, and serving a word that decodes runs `exec`. -/
theorem stepRunsTheDecodedCommand : Obligations.StepRunsTheDecodedCommand := by
  intro s w i h
  have hserve : ∀ t, serveCommand w t = exec i t := fun t => by rw [serveCommand, h]
  constructor
  · rw [step_cons _ _ _ rfl]
    exact hserve s
  · rw [step_cons _ _ _ rfl]
    exact hserve { s with host := .reset :: s.host }

/-! ### Runs of reads -/

/-- Settles O10, by induction on the reads: after the first one only the answers differ, which no read
looks at. -/
theorem readsHaveNoSideEffects : Obligations.ReadsHaveNoSideEffects := by
  intro s addrs
  induction addrs generalizing s with
  | nil => simp [State.withEvents, Host.Core.run]
  | cons a addrs ih =>
    have hread : step (s.withEvents ((a :: addrs).map .read)) = .next
        (({ s with answers := s.answers ++ [(a, portRead s a)] } : State).withEvents (addrs.map .read)) :=
      step_read s a _
    rw [List.length_cons, run_next hread, ih]
    simp [portRead_setHostSide s s.host]

/-! ### Interleavings -/

theorem unitOfWord_of_mem_wordsFor {unit : UnitId} {es : List HostEvent} {w : Word16}
    (h : w ∈ wordsFor unit es) : unitOfWord w = unit := by
  obtain ⟨e, -, he⟩ := List.mem_filterMap.mp h
  cases e <;> simp [HostEvent.wordFor] at he <;> exact he.2 ▸ he.1

/-- Issued alone, a unit's words are all its own. -/
theorem wordsFor_same (unit : UnitId) (es : List HostEvent) :
    wordsFor unit ((wordsFor unit es).map .command) = wordsFor unit es := by
  rw [wordsFor, List.filterMap_map]
  refine (List.filterMap_congr fun w hw => ?_).trans List.filterMap_some
  simp [HostEvent.wordFor, unitOfWord_of_mem_wordsFor hw]

/-- Issued alone, a unit's words hold none for the other unit. -/
theorem wordsFor_other {unit other : UnitId} (hne : unit ≠ other) (es : List HostEvent) :
    wordsFor other ((wordsFor unit es).map .command) = [] := by
  rw [wordsFor, List.filterMap_map, List.filterMap_eq_nil_iff]
  intro w hw
  simp [HostEvent.wordFor, unitOfWord_of_mem_wordsFor hw, hne]

/-- The units' ends after any events without a reset: each unit's own words, folded (`run_events`). -/
theorem run_withEvents (s : State) {es : List HostEvent} (h : ∀ e ∈ es, e.resets = false) :
    ∃ t, core.run es.length (s.withEvents es) = .next t
      ∧ t.enc = runEnc s.params s.enc (wordsFor .enc es)
      ∧ t.dec = runDec s.params s.dec (wordsFor .dec es) := by
  obtain ⟨t, hrun, henc, hdec, -, -⟩ := run_events es (s.withEvents es) s.host h rfl
  exact ⟨t, hrun, henc, hdec⟩

/-- A list of command words, run as `run_withEvents` runs any events. -/
theorem run_words (s : State) (ws : List Word16) :
    ∃ t, core.run ws.length (s.withEvents (ws.map .command)) = .next t
      ∧ t.enc = runEnc s.params s.enc (wordsFor .enc (ws.map .command))
      ∧ t.dec = runDec s.params s.dec (wordsFor .dec (ws.map .command)) := by
  have h : ∀ e ∈ ws.map HostEvent.command, e.resets = false := by simp [HostEvent.resets]
  simpa only [List.length_map] using run_withEvents s h

/-- Settles O16: a unit's end is the fold of its own words, which are the same in the interleaving and
alone, and the other unit's words alone hold none of them. -/
theorem interleavingsLeaveEachUnitAsAlone : Obligations.InterleavingsLeaveEachUnitAsAlone := by
  intro s es hes
  obtain ⟨t, hrun, henc, hdec⟩ := run_withEvents s hes
  obtain ⟨te, hrunE, hencE, hdecE⟩ := run_words s (wordsFor .enc es)
  obtain ⟨td, hrunD, hencD, hdecD⟩ := run_words s (wordsFor .dec es)
  rw [wordsFor_same] at hencE hdecD
  rw [wordsFor_other (by decide)] at hdecE hencD
  exact ⟨t, te, td, hrun, hrunE, hrunD, henc.trans hencE.symm, hdec.trans hdecD.symm, hdecE, hencD⟩

end Sys2Proof.Proofs
end

section
/-! The read port's address map (R55), by the ranges of the address. -/

namespace Sys2Proof.Proofs

open Sys2Proof Sys2Proof.Machine Sys2Proof.Machine.Laws

/-- From address 7 on no register is selected: two windows, and 0 elsewhere. -/
theorem portRead_of_seven_le (s : State) {a : Word32} (h : 7 ≤ a.toNat) :
    portRead s a =
      if 0x40000000 ≤ a.toNat ∧ a.toNat < 0x80000000 then windowEntry s.enc.out (a - 0x40000000#32).toNat
      else if 0x80000000 ≤ a.toNat ∧ a.toNat < 0xC0000000 then
        windowEntry s.dec.visibleOut (a - 0x80000000#32).toNat
      else 0#32 := by
  have hne : ∀ k : Word32, k.toNat < 7 → a ≠ k := fun k hk hak => by subst hak; omega
  rw [portRead]
  iterate 7 rw [if_neg (hne _ (by decide))]
  rfl

theorem portRead_encWindow (s : State) {i : Nat} (h : i < 2 ^ 30) :
    portRead s (BitVec.ofNat 32 (0x40000000 + i)) = windowEntry s.enc.out i := by
  have ha : (BitVec.ofNat 32 (0x40000000 + i)).toNat = 0x40000000 + i :=
    Nat.mod_eq_of_lt (by omega)
  rw [portRead_of_seven_le s (by omega), if_pos (by omega)]
  congr 1
  bv_omega

theorem portRead_decWindow (s : State) {i : Nat} (h : i < 2 ^ 30) :
    portRead s (BitVec.ofNat 32 (0x80000000 + i)) = windowEntry s.dec.visibleOut i := by
  have ha : (BitVec.ofNat 32 (0x80000000 + i)).toNat = 0x80000000 + i :=
    Nat.mod_eq_of_lt (by omega)
  rw [portRead_of_seven_le s (by omega), if_neg (by omega), if_pos (by omega)]
  congr 1
  bv_omega

theorem portRead_unmapped (s : State) {a : Word32}
    (h : (7 ≤ a.toNat ∧ a.toNat < 0x40000000) ∨ 0xC0000000 ≤ a.toNat) : portRead s a = 0#32 := by
  rw [portRead_of_seven_le s (by omega), if_neg (by omega), if_neg (by omega)]

theorem windowEntry_of_some {out : List Byte} {i : Nat} {b : Byte} (h : out[i]? = some b) :
    windowEntry out i = b.setWidth 32 := by
  simp [windowEntry, h]

theorem windowEntry_of_none {out : List Byte} {i : Nat} (h : out[i]? = none) : windowEntry out i = 0#32 := by
  rw [windowEntry, List.getD_eq_getElem?_getD, h]
  rfl

theorem visibleOut_of_doneOk {u : DecUnit} (h : u.phase = .doneOk) : u.visibleOut = u.out := if_pos h

theorem visibleOut_of_not_doneOk {u : DecUnit} (h : u.phase ≠ .doneOk) : u.visibleOut = [] := if_neg h

/-- Settles O45: the registers by their literal addresses, the windows and the unmapped ranges by
`portRead_of_seven_le`, and the decoder's output through its gate. -/
theorem readPortAddressMap : Obligations.ReadPortAddressMap := by
  intro s
  refine ⟨rfl, rfl, rfl, rfl, rfl, rfl, ?decLength, ?encWindow, ?decWindow, fun a h => portRead_unmapped s h⟩
  case decLength =>
    change BitVec.ofNat 32 s.dec.visibleOut.length = _
    split
    next hok => rw [visibleOut_of_doneOk hok]
    next hno => rw [visibleOut_of_not_doneOk hno]; rfl
  case encWindow =>
    intro i hi
    rw [portRead_encWindow s hi]
    split
    next b hb => exact windowEntry_of_some hb
    next hb => exact windowEntry_of_none hb
  case decWindow =>
    intro i hi
    rw [portRead_decWindow s hi]
    split
    next hok =>
      rw [visibleOut_of_doneOk hok]
      split
      next b hb => exact windowEntry_of_some hb
      next hb => exact windowEntry_of_none hb
    next hno =>
      rw [visibleOut_of_not_doneOk hno]
      exact windowEntry_of_none rfl

end Sys2Proof.Proofs
end

section
/-! The command word's fields and the commands they spell: each command's word is the one whose fields
are the command's (R70, R71, R73). -/

namespace Sys2Proof.Proofs

open Sys2Proof

/-! ### Words and fields -/

/-- The fields of a word put together from fields are those fields. -/
theorem ofWord_toWord (f : FormatC) : FormatC.ofWord f.toWord = f := by
  obtain ⟨rsv, u, op, d⟩ := f
  have hrsv : (rsv ++ u ++ op ++ d).extractLsb' 11 5 = rsv := by
    rw [BitVec.extractLsb'_append_eq_of_le (by decide), BitVec.extractLsb'_append_eq_of_le (by decide)]
    exact BitVec.extractLsb'_append_eq_left
  have hu : (rsv ++ u ++ op ++ d).extractLsb' 10 1 = u := by
    rw [BitVec.extractLsb'_append_eq_of_le (by decide), BitVec.extractLsb'_append_eq_of_le (by decide)]
    exact BitVec.extractLsb'_append_eq_right
  have hop : (rsv ++ u ++ op ++ d).extractLsb' 8 2 = op := by
    rw [BitVec.extractLsb'_append_eq_of_le (by decide)]
    exact BitVec.extractLsb'_append_eq_right
  have hd : (rsv ++ u ++ op ++ d).extractLsb' 0 8 = d := BitVec.extractLsb'_append_eq_right
  exact (FormatC.mk.injEq ..).mpr ⟨hrsv, hu, hop, hd⟩

/-- A word is the concatenation of its fields: the format leaves no bit out. -/
theorem toWord_ofWord (w : Word16) : (FormatC.ofWord w).toWord = w := by
  have hrsv : w.extractLsb' 11 5 ++ w.extractLsb' 10 1 = w.extractLsb' 10 6 :=
    BitVec.extractLsb'_append_extractLsb'_eq_extractLsb' rfl
  have hop : w.extractLsb' 10 6 ++ w.extractLsb' 8 2 = w.extractLsb' 8 8 :=
    BitVec.extractLsb'_append_extractLsb'_eq_extractLsb' rfl
  have hd : w.extractLsb' 8 8 ++ w.extractLsb' 0 8 = w.extractLsb' 0 16 :=
    BitVec.extractLsb'_append_extractLsb'_eq_extractLsb' rfl
  change w.extractLsb' 11 5 ++ w.extractLsb' 10 1 ++ w.extractLsb' 8 2 ++ w.extractLsb' 0 8 = w
  rw [hrsv, hop, hd]
  exact BitVec.extractLsb'_eq_self

/-! ### The fields of a command -/

/-- The `U` bit that names a unit (R70). -/
def unitBit : UnitId → BitVec 1
  | .enc => 0#1
  | .dec => 1#1

/-- A command's fields, from the table of R73. -/
def formatOf : Instr → FormatC
  | .encInit => { rsv := 0#5, u := 0#1, op := 0#2, d := 0#8 }
  | .encByte d => { rsv := 0#5, u := 0#1, op := 1#2, d := d }
  | .encFinal => { rsv := 0#5, u := 0#1, op := 2#2, d := 0#8 }
  | .decInit => { rsv := 0#5, u := 1#1, op := 0#2, d := 0#8 }
  | .decChar c => { rsv := 0#5, u := 1#1, op := 1#2, d := c }
  | .decFinal => { rsv := 0#5, u := 1#1, op := 2#2, d := 0#8 }

/-- Setting the low byte of a word whose low byte is 0 puts the byte below the high one. -/
theorem or_setWidth_eq_append (hi d : Byte) : hi ++ 0#8 ||| d.setWidth 16 = hi ++ d := by
  have hd : d.setWidth 16 = 0#8 ++ d := BitVec.setWidth_eq_append (by decide)
  rw [hd, BitVec.or_append]
  simp

theorem encode_encByte (d : Byte) : encode (.encByte d) = 0x01#8 ++ d := by
  rw [← or_setWidth_eq_append]
  rfl

theorem encode_decChar (c : Byte) : encode (.decChar c) = 0x05#8 ++ c := by
  rw [← or_setWidth_eq_append]
  rfl

theorem toWord_formatOf (i : Instr) : (formatOf i).toWord = encode i := by
  cases i with
  | encInit | encFinal | decInit | decFinal => rfl
  | encByte d =>
    have hhigh : 0#5 ++ 0#1 ++ 1#2 = 0x01#8 := by decide
    rw [encode_encByte, ← hhigh]
    rfl
  | decChar c =>
    have hhigh : 0#5 ++ 1#1 ++ 1#2 = 0x05#8 := by decide
    rw [encode_decChar, ← hhigh]
    rfl

theorem ofWord_encode (i : Instr) : FormatC.ofWord (encode i) = formatOf i := by
  rw [← toWord_formatOf, ofWord_toWord]

/-- A word with a command's fields is the command's word. -/
theorem eq_encode_of_ofWord {w : Word16} {i : Instr} (h : FormatC.ofWord w = formatOf i) : w = encode i := by
  rw [← toWord_ofWord w, h, toWord_formatOf]

/-- Every command's fields pass the format's check. -/
theorem formatOf_wf (i : Instr) : (formatOf i).wf = true := by
  cases i <;> rfl

/-! ### The decoder on fields -/

theorem unitOfWord_eq_of_u {w : Word16} {unit : UnitId} (h : (FormatC.ofWord w).u = unitBit unit) :
    unitOfWord w = unit := by
  change (if (FormatC.ofWord w).u = 1#1 then UnitId.dec else .enc) = unit
  rw [h]
  cases unit <;> rfl

theorem u_eq_unitBit (w : Word16) : (FormatC.ofWord w).u = unitBit (unitOfWord w) := by
  have hbit : ∀ b : BitVec 1, b = unitBit (if b = 1#1 then .dec else .enc) := by decide
  exact hbit _

theorem decode_of_formatOf {w : Word16} {i : Instr} (h : FormatC.ofWord w = formatOf i) :
    decode w = .command i := by
  have hunit : unitOfWord w = i.unit := unitOfWord_eq_of_u (by rw [h]; cases i <;> rfl)
  cases i <;> simp [decode, h, hunit, formatOf, Instr.unit, initOf, dataOf, finalOf]

theorem formatOf_initOf (unit : UnitId) :
    formatOf (initOf unit) = { rsv := 0#5, u := unitBit unit, op := 0#2, d := 0#8 } := by
  cases unit <;> rfl

theorem formatOf_dataOf (unit : UnitId) (d : Byte) :
    formatOf (dataOf unit d) = { rsv := 0#5, u := unitBit unit, op := 1#2, d := d } := by
  cases unit <;> rfl

theorem formatOf_finalOf (unit : UnitId) :
    formatOf (finalOf unit) = { rsv := 0#5, u := unitBit unit, op := 2#2, d := 0#8 } := by
  cases unit <;> rfl

/-- The three branches of R74 that answer a command, in each of which the fields are the command's. -/
theorem ofWord_of_decode {w : Word16} {i : Instr} (h : decode w = .command i) :
    FormatC.ofWord w = formatOf i := by
  have hu := u_eq_unitBit w
  unfold decode at h
  generalize FormatC.ofWord w = f at h hu ⊢
  obtain ⟨rsv, u, op, d⟩ := f
  dsimp only at h hu
  subst hu
  split_ifs at h with hrsv hop hd hop hop hd
  all_goals
    cases h
    rw [not_not] at hrsv
    subst hrsv hop
  case pos => subst hd; exact (formatOf_initOf _).symm
  case pos => exact (formatOf_dataOf _ d).symm
  case pos => subst hd; exact (formatOf_finalOf _).symm

/-- Settles O3: the encoding's fields are the command's, and a word with a command's fields decodes to it. -/
theorem decodeOfEncodeIsTheCommand : Obligations.DecodeOfEncodeIsTheCommand := fun i =>
  ⟨by rw [ofWord_encode, formatOf_wf], decode_of_formatOf (ofWord_encode i)⟩

/-- Settles O4: a word that decodes to a command has the command's fields, and the fields are the whole
word. -/
theorem encodeOfDecodeIsTheWord : Obligations.EncodeOfDecodeIsTheWord := fun _ _ h =>
  (eq_encode_of_ofWord (ofWord_of_decode h)).symm

theorem decode_eq_command_iff {w : Word16} {i : Instr} : decode w = .command i ↔ w = encode i :=
  ⟨fun h => (encodeOfDecodeIsTheWord w i h).symm, fun h => h ▸ (decodeOfEncodeIsTheCommand i).2⟩

/-- Settles O1: each word is its command's encoding. -/
theorem tableWordsDecodeToTheirCommands : Obligations.TableWordsDecodeToTheirCommands := by
  refine ⟨?_, ?_, ?_, ?_, ?_, ?_⟩ <;> exact decode_eq_command_iff.mpr rfl

/-! ### The rows of R73 -/

/-- A row that fixes every bit is matched by one word. -/
theorem and_fullMask_eq_iff {w m : Word16} : w &&& 0xFFFF#16 = m ↔ w = m := by
  rw [show 0xFFFF#16 = BitVec.allOnes 16 from rfl, BitVec.and_allOnes]

theorem highByte_append_lowByte (w : Word16) : w.extractLsb' 8 8 ++ w.extractLsb' 0 8 = w :=
  (BitVec.extractLsb'_append_extractLsb'_eq_extractLsb' rfl).trans BitVec.extractLsb'_eq_self

theorem append_and_highMask (hi lo : Byte) : (hi ++ lo) &&& 0xFF00#16 = hi ++ 0#8 := by
  rw [show 0xFF00#16 = BitVec.allOnes 8 ++ 0#8 from rfl, BitVec.and_append, BitVec.and_allOnes,
    BitVec.and_zero]

/-- A row that fixes the high byte is matched by that byte before any low byte. -/
theorem and_highMask_eq_iff {w m : Word16} {hi d : Byte} (hm : m = hi ++ 0#8) :
    w &&& 0xFF00#16 = m ∧ d = w.extractLsb' 0 8 ↔ w = hi ++ d := by
  subst hm
  constructor
  · rintro ⟨hmask, rfl⟩
    rw [← highByte_append_lowByte w, append_and_highMask, BitVec.append_left_inj] at hmask
    rw [← hmask, highByte_append_lowByte]
  · rintro rfl
    exact ⟨append_and_highMask hi d, BitVec.extractLsb'_append_eq_right.symm⟩

/-- Rows (match, mask) that all fix the bits of `common` and no two of which agree on them: a word
matches one at most, the one its own bits under `common` name. -/
theorem length_filter_rows_le_one {rows : List (Word16 × Word16)} (common : Word16)
    (hrows : ∀ r ∈ rows, r.2 &&& common = common ∧ r.1 &&& common = r.1)
    (hne : (rows.map Prod.fst).Nodup) (w : Word16) :
    (rows.filter fun r => w &&& r.2 == r.1).length ≤ 1 := by
  have hnamed : ∀ r ∈ rows, (w &&& r.2 == r.1) = true → (r.1 == w &&& common) = true := by
    intro r hr hmatch
    obtain ⟨hmask, hfst⟩ := hrows r hr
    rw [beq_iff_eq] at hmatch ⊢
    rw [← hmask, ← BitVec.and_assoc, hmatch, hfst]
  calc (rows.filter fun r => w &&& r.2 == r.1).length
      = rows.countP fun r => w &&& r.2 == r.1 := List.countP_eq_length_filter.symm
    _ ≤ rows.countP fun r => r.1 == w &&& common := List.countP_mono_left hnamed
    _ = (rows.map Prod.fst).count (w &&& common) := by simp only [List.count, List.countP_map, Function.comp_def]
    _ ≤ 1 := List.nodup_iff_count_le_one.mp hne _

/-- Settles O2: a word decodes to a command exactly when it is the command's word, which is what the
command's row matches; the rows' matches differ in the high byte, which every mask keeps. -/
theorem wordSpellsCommandIffRowMatches : Obligations.WordSpellsCommandIffRowMatches := by
  intro w
  simp only [decode_eq_command_iff, and_fullMask_eq_iff, encode_encByte, encode_decChar]
  exact ⟨.rfl, fun _ => (and_highMask_eq_iff (by decide)).symm, .rfl, .rfl,
    fun _ => (and_highMask_eq_iff (by decide)).symm, .rfl,
    length_filter_rows_le_one 0xFF00#16 (by simp) (by decide) w⟩

end Sys2Proof.Proofs
end

section
/-! The decoder of R74 by numbers, its illegal words (R75), and the step that serves one (R204). -/

namespace Sys2Proof.Proofs

open Sys2Proof Sys2Proof.Machine Sys2Proof.Machine.Laws

/-! ### The fields as numbers -/

theorem rsv_eq_zero_iff (w : Word16) : (FormatC.ofWord w).rsv = 0#5 ↔ w.toNat / 2048 = 0 := by
  simp only [FormatC.ofWord, ← BitVec.toNat_inj, BitVec.extractLsb'_toNat, Nat.shiftRight_eq_div_pow,
    BitVec.toNat_ofNat]
  omega

theorem op_eq_iff (w : Word16) {k : Nat} (hk : k < 4) :
    (FormatC.ofWord w).op = BitVec.ofNat 2 k ↔ w.toNat / 256 % 4 = k := by
  simp only [FormatC.ofWord, ← BitVec.toNat_inj, BitVec.extractLsb'_toNat, Nat.shiftRight_eq_div_pow,
    BitVec.toNat_ofNat]
  omega

theorem d_eq_ofNat (w : Word16) : (FormatC.ofWord w).d = BitVec.ofNat 8 w.toNat := by
  simp [FormatC.ofWord, ← BitVec.toNat_inj, BitVec.extractLsb'_toNat]

theorem d_eq_zero_iff (w : Word16) : (FormatC.ofWord w).d = 0#8 ↔ w.toNat % 256 = 0 := by
  rw [d_eq_ofNat, ← BitVec.toNat_inj, BitVec.toNat_ofNat]
  rfl

theorem unitOfWord_eq_dec_iff {w : Word16} : unitOfWord w = .dec ↔ w.getLsbD 10 = true := by
  simp only [unitOfWord, BitVec.getLsbD_eq_extractLsb', beq_iff_eq]
  split <;> simp_all

theorem unitOfWord_eq_enc_iff {w : Word16} : unitOfWord w = .enc ↔ w.getLsbD 10 = false := by
  rw [← Bool.not_eq_true, ← unitOfWord_eq_dec_iff]
  cases unitOfWord w <;> decide

/-- R74 read off the word as a number. -/
theorem decode_eq_toNat (w : Word16) :
    decode w =
      if w.toNat / 2048 ≠ 0 then .illegal (unitOfWord w) .reservedBits
      else if w.toNat / 256 % 4 = 0 then
        if w.toNat % 256 = 0 then .command (initOf (unitOfWord w)) else .illegal (unitOfWord w) .operandNotZero
      else if w.toNat / 256 % 4 = 1 then .command (dataOf (unitOfWord w) (BitVec.ofNat 8 w.toNat))
      else if w.toNat / 256 % 4 = 2 then
        if w.toNat % 256 = 0 then .command (finalOf (unitOfWord w)) else .illegal (unitOfWord w) .operandNotZero
      else .illegal (unitOfWord w) .reservedOperation := by
  rw [decode]
  simp only [ne_eq, rsv_eq_zero_iff, d_eq_zero_iff, op_eq_iff w (by decide : 0 < 4),
    op_eq_iff w (by decide : 1 < 4), op_eq_iff w (by decide : 2 < 4)]
  rw [d_eq_ofNat]

/-! ### Serving an illegal word -/

theorem wordEnc_of_illegal {w : Word16} {why : IllegalReason} (h : decode w = .illegal .enc why) (p : Params)
    {u : EncUnit} (hfault : u.fault = .noFault) : wordEnc w p u = u.raise .illegalCommand := by
  simp [wordEnc, h, hfault]

theorem wordDec_of_illegal {w : Word16} {why : IllegalReason} (h : decode w = .illegal .dec why) (p : Params)
    {u : DecUnit} (hfault : u.fault = .noFault) : wordDec w p u = u.raise .illegalCommand := by
  simp [wordDec, h, hfault]

theorem step_illegal_enc {s : State} {w : Word16} {why : IllegalReason} (h : decode w = .illegal .enc why)
    (hfault : s.enc.fault = .noFault) (rest : List HostEvent) :
    step { s with host := .command w :: rest } =
      .next { s with enc := s.enc.raise .illegalCommand, host := rest } := by
  rw [step_command_of_enc ((decode_unit w).2 _ _ h).symm, wordEnc_of_illegal h _ hfault]

theorem step_illegal_dec {s : State} {w : Word16} {why : IllegalReason} (h : decode w = .illegal .dec why)
    (hfault : s.dec.fault = .noFault) (rest : List HostEvent) :
    step { s with host := .command w :: rest } =
      .next { s with dec := s.dec.raise .illegalCommand, host := rest } := by
  rw [step_command_of_dec ((decode_unit w).2 _ _ h).symm, wordDec_of_illegal h _ hfault]

/-- Settles O5: R74's branches read off the number, and the unit an illegal word names raises
ILLEGAL_COMMAND and changes nothing else. -/
theorem decodingFollowsTheFields : Obligations.DecodingFollowsTheFields := by
  intro w unit hunit
  obtain rfl : unitOfWord w = unit := by
    rw [← unitOfWord_eq_dec_iff] at hunit
    cases unit <;> cases hw : unitOfWord w <;> simp [hw] at hunit ⊢
  have hdecode := decode_eq_toNat w
  refine ⟨fun hrsv => ?rsv, fun hrsv => ⟨fun hop => ⟨fun hd => ?init, fun hd => ?initOperand⟩, fun hop => ?data,
    fun hop => ⟨fun hd => ?final, fun hd => ?finalOperand⟩, fun hop => ?reserved⟩,
    fun s why h => ⟨fun hu hfault => ?stepEnc, fun hu hfault => ?stepDec⟩⟩
  case rsv => exact ⟨_, by rw [hdecode, if_pos hrsv]⟩
  case stepEnc => rw [hu] at h; exact step_illegal_enc h hfault s.host
  case stepDec => rw [hu] at h; exact step_illegal_dec h hfault s.host
  all_goals rw [if_neg (not_not.mpr hrsv)] at hdecode
  case init =>
    rw [hdecode, if_pos hop, if_pos hd]
    cases unitOfWord w <;> rfl
  case initOperand => exact ⟨_, by rw [hdecode, if_pos hop, if_neg hd]⟩
  all_goals rw [if_neg (by omega)] at hdecode
  case data =>
    rw [hdecode, if_pos hop]
    cases unitOfWord w <;> rfl
  all_goals rw [if_neg (by omega)] at hdecode
  case final =>
    rw [hdecode, if_pos hop, if_pos hd]
    cases unitOfWord w <;> rfl
  case finalOperand => exact ⟨_, by rw [hdecode, if_pos hop, if_neg hd]⟩
  case reserved => exact ⟨_, by rw [hdecode, if_neg (by omega)]⟩

/-! ### The illegal words and their number -/

/-- The words that spell no command, by R75's three classes. -/
theorem decode_illegal_iff (w : Word16) :
    (∃ unit why, decode w = .illegal unit why) ↔
      w.toNat / 2048 ≠ 0 ∨ w.toNat / 256 % 4 = 3 ∨ (w.toNat / 256 % 4 ≠ 1 ∧ w.toNat % 256 ≠ 0) := by
  rw [decode_eq_toNat]
  split_ifs <;> simp <;> omega

/-- An opcode-table number spells a command when its word is not illegal. -/
theorem decodeTableWord_isSome_iff (nbits n : Nat) :
    (decodeTableWord nbits n).isSome = true ↔ ¬∃ unit why, decode (tableWord nbits n) = .illegal unit why := by
  unfold decodeTableWord
  split <;> simp_all

theorem tableWord_toNat {n : Nat} (h : n < 65536) : (tableWord 16 n).toNat = n := by
  rw [tableWord, BitVec.toNat_ofNat]
  omega

/-- The legal words by their high and low byte: any low byte below a DATA byte, 0 alone below an INIT or
FINAL byte (R73). -/
theorem decodeTableWord_isSome_iff_bytes {hi lo : Nat} (hhi : hi < 256) (hlo : lo < 256) :
    (decodeTableWord 16 (hi * 256 + lo)).isSome = true ↔
      hi < 8 ∧ (hi % 4 = 1 ∨ (hi % 4 ≠ 3 ∧ lo = 0)) := by
  rw [decodeTableWord_isSome_iff, decode_illegal_iff, tableWord_toNat (by omega)]
  omega

/-- How many words a high byte has that spell a command (R73, R75): none for a reserved one, all for a DATA
byte, one for an INIT or FINAL byte. -/
def legalWordsUnder (hi : Nat) : Nat :=
  if 8 ≤ hi ∨ hi % 4 = 3 then 0 else if hi % 4 = 1 then 256 else 1

theorem length_filter_lowBytes {hi : Nat} (hhi : hi < 256) :
    ((List.range 256).filter fun lo => (decodeTableWord 16 (hi * 256 + lo)).isSome).length =
      legalWordsUnder hi := by
  have hlegal := fun lo (hlo : lo ∈ List.range 256) =>
    decodeTableWord_isSome_iff_bytes hhi (List.mem_range.mp hlo)
  unfold legalWordsUnder
  split_ifs with hnone hdata
  · rw [List.filter_eq_nil_iff.mpr fun lo hlo => (hlegal lo hlo).not.mpr (by omega)]
    rfl
  · rw [List.filter_eq_self.mpr fun lo hlo => (hlegal lo hlo).mpr (by omega), List.length_range]
  · have hzero : ∀ lo ∈ List.range 256, (decodeTableWord 16 (hi * 256 + lo)).isSome = (lo == 0) := fun lo hlo =>
      Bool.eq_iff_iff.mpr ((hlegal lo hlo).trans (by rw [beq_iff_eq]; omega))
    rw [List.filter_congr hzero]
    rfl

/-- R75's count: two DATA bytes with 256 words each, four INIT and FINAL bytes with one word each. -/
theorem sum_length_filter_words :
    ((List.range 256).map fun hi => ((List.range 256).filter fun lo =>
      (decodeTableWord 16 (hi * 256 + lo)).isSome).length).sum = 516 := by
  have hsplit : List.range 256 = List.range 8 ++ (List.range 248).map (8 + ·) := List.range_add (n := 8) (m := 248)
  have hreserved : ((List.range 248).map (legalWordsUnder ∘ (8 + ·))).sum = 0 := by
    refine List.sum_eq_zero fun k hk => ?_
    obtain ⟨n, -, rfl⟩ := List.mem_map.mp hk
    exact if_pos (.inl (Nat.le_add_right 8 n))
  rw [List.map_congr_left fun hi hhi => length_filter_lowBytes (List.mem_range.mp hhi), hsplit,
    List.map_append, List.sum_append, List.map_map, hreserved]
  decide

/-- Settles O6: R75's ranges are the three classes' fields, an illegal word's step is that of the unit bit 10
names, and the legal words are counted by their high byte. -/
theorem illegalWordsAreTheThreeClasses : Obligations.IllegalWordsAreTheThreeClasses := by
  refine ⟨fun w => ?_, fun s w unit why h henc hdec => ?_, sum_length_filter_words⟩
  · rw [decode_illegal_iff]
    omega
  · have hunit := (decode_unit w).2 unit why h
    rw [← unitOfWord_eq_enc_iff, ← unitOfWord_eq_dec_iff, ← hunit]
    cases unit with
    | enc => exact ⟨_, step_illegal_enc h henc s.host, fun _ => ⟨rfl, rfl⟩, fun hne => by cases hne⟩
    | dec => exact ⟨_, step_illegal_dec h hdec s.host, fun hne => (by cases hne), fun _ => ⟨rfl, rfl⟩⟩

end Sys2Proof.Proofs
end

section
/-! The assembler's plain lines (R78) and pseudo-instructions (R79). -/

namespace Sys2Proof.Proofs

open Sys2Proof Sys2Proof.Machine

/-! ### Operands -/

theorem imm8_of_le {n : Nat} (h : n ≤ 255) : imm8 n = some (BitVec.ofNat 8 n) := if_pos h

theorem imm8_of_gt {n : Nat} (h : 255 < n) : imm8 n = none := if_neg (by omega)

theorem imm8_toNat (d : Byte) : imm8 d.toNat = some d := by
  rw [imm8_of_le (by omega), BitVec.ofNat_toNat, BitVec.setWidth_eq]

theorem printable_toNat {c : Byte} (h : 0x20 ≤ c.toNat ∧ c.toNat ≤ 0x7E) : printable c.toNat = some c := by
  rw [printable, if_pos h, BitVec.ofNat_toNat, BitVec.setWidth_eq]

theorem printable_of_out_of_range {n : Nat} (h : n < 0x20 ∨ 0x7E < n) : printable n = none := if_neg (by omega)

/-! ### Lists of operands -/

theorem convertAll_cons_of_some {f : Nat → Option Byte} {n : Nat} {b : Byte} (h : f n = some b) (ns : List Nat) :
    convertAll f (n :: ns) = (convertAll f ns).map (b :: ·) := by
  rw [convertAll, h]
  cases convertAll f ns <;> rfl

theorem convertAll_cons_of_none {f : Nat → Option Byte} {n : Nat} (h : f n = none) (ns : List Nat) :
    convertAll f (n :: ns) = none := by
  rw [convertAll, h]

/-- A list each of whose elements is read as its byte is read as the bytes. -/
theorem convertAll_map_toNat {f : Nat → Option Byte} {bs : List Byte} (h : ∀ b ∈ bs, f b.toNat = some b) :
    convertAll f (bs.map BitVec.toNat) = some bs := by
  induction bs with
  | nil => rfl
  | cons b bs ih =>
    rw [List.map_cons, convertAll_cons_of_some (h b List.mem_cons_self),
      ih fun c hc => h c (List.mem_cons_of_mem b hc)]
    rfl

/-- One element out of range rejects the whole list. -/
theorem convertAll_eq_none {f : Nat → Option Byte} {n : Nat} {ns : List Nat} (hn : n ∈ ns) (h : f n = none) :
    convertAll f ns = none := by
  induction ns with
  | nil => cases hn
  | cons m ns ih =>
    cases hn with
    | head => exact convertAll_cons_of_none h ns
    | tail _ hn =>
      cases hm : f m with
      | none => exact convertAll_cons_of_none hm ns
      | some b => rw [convertAll_cons_of_some hm, ih hn]; rfl

/-! ### Lines -/

theorem encodeWords_eq (ds : List Byte) :
    encodeWords ds = [encode .encInit] ++ (ds.map fun d => encode (.encByte d)) ++ [encode .encFinal] := by
  simp [encodeWords, encodeCommands]

theorem decodeWords_eq (cs : List Byte) :
    decodeWords cs = [encode .decInit] ++ (cs.map fun c => encode (.decChar c)) ++ [encode .decFinal] := by
  simp [decodeWords, decodeCommands]

/-- Settles O49: a list of bytes or a printable string is read whole, an unprintable element rejects it, and
the run lines put INIT and FINAL around the words. -/
theorem pseudoInstructionsExpand : Obligations.PseudoInstructionsExpand := by
  refine ⟨fun ds => ?bytes, rfl, fun cs hcs => ?printable, fun ns ⟨n, hn, hrange⟩ => ?rejected⟩
  case bytes =>
    have hread := convertAll_map_toNat (bs := ds) fun d _ => imm8_toNat d
    rw [encodeWords_eq, AsmLine.words, AsmLine.words, hread]
    exact ⟨rfl, rfl⟩
  case printable =>
    have hread := convertAll_map_toNat (bs := cs) fun c hc => printable_toNat (hcs c hc)
    rw [decodeWords_eq, AsmLine.words, AsmLine.words, hread]
    exact ⟨rfl, rfl⟩
  case rejected =>
    have hread := convertAll_eq_none hn (printable_of_out_of_range hrange)
    rw [AsmLine.words, AsmLine.words, hread]
    exact ⟨rfl, rfl⟩

/-- Settles O50: an operand in range is read as itself, one out of range is not read, and the plain lines are
their commands' words. -/
theorem assemblerRejectsOperandsOutOfRange : Obligations.AssemblerRejectsOperandsOutOfRange := by
  refine ⟨rfl, rfl, rfl, rfl, fun n hn => ?inRange, fun n hn => ?beyond, fun n hn => ?word⟩
  case inRange =>
    have hwiden : (BitVec.ofNat 8 n).setWidth 16 = BitVec.ofNat 16 n :=
      BitVec.setWidth_ofNat_of_le_of_lt (by decide) (by omega)
    rw [AsmLine.words, AsmLine.words, imm8_of_le hn, ← hwiden]
    exact ⟨rfl, rfl⟩
  case beyond =>
    rw [AsmLine.words, AsmLine.words, imm8_of_gt hn]
    exact ⟨rfl, rfl⟩
  case word => rw [AsmLine.words, imm16, if_pos hn]; rfl

end Sys2Proof.Proofs
end

section
/-! The encoder's tables and loops: EXTRACT and RECON run to their end (R104, R136), the alphabet (R100),
and the length of ENCODE's text (R102). -/

namespace Sys2Proof.Proofs

open Sys2Proof Sys2Proof.Machine Sys2Proof.Machine.Laws

/-- Settles O44: what EXTRACT and RECON do to each field, at every value of the counts. -/
theorem datapathLoopsRunToTheirEnd : Obligations.DatapathLoopsRunToTheirEnd :=
  ⟨fun u => ⟨extract_pend u, extract_out_length u, extract_acc u, extract_frame u⟩,
    fun u => ⟨recon_held u, recon_out_length u, recon_acc u, recon_frame u⟩⟩

/-- The validator reads an alphabet byte back as its index, so no two indices have the same byte. -/
theorem alpha_injective : Function.Injective alpha := fun i j h => by
  simpa only [rev_alpha, CharClass.idx.injEq] using congrArg rev h

theorem alpha_ne_padByte (i : Sextet) : alpha i ≠ Config.padByte := fun h => by
  simpa only [rev_alpha, rev_padByte, reduceCtorEq] using congrArg rev h

/-- Settles O25: the 64 listed characters are compared one by one; that the table is one to one and holds no
padding byte follows from the validator's reading (R130). The codes are ASCII's (log entry 10). -/
theorem alphabetIsTheFixedOrder : Obligations.AlphabetIsTheFixedOrder :=
  ⟨by decide, alpha_injective, alpha_ne_padByte⟩

theorem encodeText_length (b : List Byte) :
    (encodeText b).length = dataSymbols b.length + padSymbols b.length := by
  simp [encodeText]

/-- The symbols and the padding bytes fill whole groups of four (R102). -/
theorem dataSymbols_add_padSymbols (n : Nat) : dataSymbols n + padSymbols n = encodedLength n := by
  unfold dataSymbols padSymbols encodedLength
  split <;> omega

/-- Settles O29: the text is made of the symbols and the padding, which R102's table counts for each `n mod 3`. -/
theorem encodedTextLength : Obligations.EncodedTextLength := by
  intro b
  have hlen : (encodeText b).length = 4 * ((b.length + 2) / 3) :=
    (encodeText_length b).trans (dataSymbols_add_padSymbols b.length)
  refine ⟨hlen, ?_, fun hmod => ?_, fun hmod => ?_, fun hmod => ?_⟩
  · rw [← List.length_eq_zero_iff, hlen, ← List.length_eq_zero_iff]
    omega
  all_goals
    rw [hlen]
    unfold dataSymbols padSymbols
    split <;> omega

end Sys2Proof.Proofs
end

section
/-! The three encoder commands, each with its whole effect (R106, R107, R108). A word's bits are counted from
the top, as the stream's are (R11): the pending bits first, then the byte accepted below them. -/

namespace Sys2Proof.Proofs

open Sys2Proof Sys2Proof.Machine Sys2Proof.Machine.Laws

/-! ### ENC_INIT -/

/-- The words beside ENC_INIT's own in the INIT row (R75). -/
theorem decode_encInit_with_operand {w : Word16} (hlo : 0x0001 ≤ w.toNat) (hhi : w.toNat ≤ 0x00FF) :
    decode w = .illegal .enc .operandNotZero := by
  have hunit : unitOfWord w = .enc := unitOfWord_eq_enc_iff.mpr (Nat.testBit_lt_two_pow (by omega))
  rw [decode_eq_toNat, if_neg (by omega), if_pos (by omega), if_neg (by omega), hunit]

theorem exec_encInit {s : State} (hfault : s.enc.fault = .noFault) :
    exec .encInit s = .next { s with enc := encInitBody s.params s.enc } :=
  congrArg Host.Outcome.next (encCommand_of_noFault hfault)

/-- Settles O22: the body writes every field but the fault, and a word beside ENC_INIT's is illegal. -/
theorem encInitFollowsItsRule : Obligations.EncInitFollowsItsRule := by
  intro s
  refine ⟨rfl, fun hfault => ?init, fun hfault => congrArg Host.Outcome.next (encCommand_of_fault hfault),
    fun w hlo hhi hfault => step_illegal_enc (decode_encInit_with_operand hlo hhi) hfault s.host⟩
  case init => rw [exec_encInit hfault, encInitBody, hfault]

/-! ### The accumulator's bits -/

/-- Where shifting out the top `n` bits leaves nothing, only they can be set. -/
theorem getMsbD_of_shiftLeft_eq_zero {w n i : Nat} {x : BitVec w} (h : x <<< n = 0#w) (hi : n ≤ i) :
    x.getMsbD i = false := by
  by_cases hw : i < w
  · have hbit : (x <<< n).getMsbD (i - n) = x.getMsbD i := by
      rw [BitVec.getMsbD_shiftLeft, Nat.sub_add_cancel hi]
    rw [← hbit, h, BitVec.getMsbD_zero]
  · exact BitVec.getMsbD_of_ge _ _ (by omega)

/-- The bits of a field with `skip` bits above it. -/
theorem getMsbD_field {w start len skip i : Nat} (x : BitVec w) (hw : skip + (len + start) = w) (hi : i < len) :
    (x.extractLsb' start len).getMsbD i = x.getMsbD (skip + i) := by
  have hidx : w - (start + len - i) = skip + i := by omega
  rw [BitVec.getMsbD_extractLsb', hidx]
  simp only [hi, decide_true, Bool.true_and, Bool.and_eq_right_iff_imp, decide_eq_true_eq]
  omega

theorem getMsbD_topField {w start len i : Nat} (x : BitVec w) (hw : len + start = w) (hi : i < len) :
    (x.extractLsb' start len).getMsbD i = x.getMsbD i := by
  rw [getMsbD_field (skip := 0) x (by omega) hi, Nat.zero_add]

section Accumulator

variable {u : EncUnit} {cap n m : Nat}

/-- The accepted byte stands directly below the pending bits (R107). -/
theorem accept_acc_getMsbD (hlow : u.acc <<< u.pend.toNat = 0#16) (hpend : u.pend.toNat ≤ 8) (d : Byte) (i : Nat) :
    (u.accept d).acc.getMsbD i = if i < u.pend.toNat then u.acc.getMsbD i else d.getMsbD (i - u.pend.toNat) := by
  have hbyte : (d.setWidth 16 <<< (8 - u.pend.toNat)).getMsbD i =
      (decide (u.pend.toNat ≤ i) && d.getMsbD (i - u.pend.toNat)) := by
    have hle : 16 - 8 ≤ i + (8 - u.pend.toNat) ↔ u.pend.toNat ≤ i := by omega
    have hidx : i + (8 - u.pend.toNat) + 8 - 16 = i - u.pend.toNat := by omega
    rw [BitVec.getMsbD_shiftLeft, BitVec.getMsbD_setWidth, hidx]
    simp only [hle]
  rw [EncUnit.accept_acc, BitVec.getMsbD_or, hbyte]
  split
  · next hi => simp [hi]
  · next hi => simp [not_lt.mp hi, getMsbD_of_shiftLeft_eq_zero hlow]

/-- The first group after a byte is accepted: the `n` pending bits, then the byte's top bits. -/
theorem accept_topGroup (h : u.Inv cap) (d : Byte) (hn : u.pend.toNat = n) (hgroup : n + m = 6) :
    (u.accept d).acc.extractLsb' 10 6 = (u.acc.extractLsb' (16 - n) n ++ d.extractLsb' (8 - m) m).cast hgroup := by
  refine BitVec.eq_of_getMsbD_eq fun i hi => ?_
  rw [getMsbD_topField _ rfl hi, accept_acc_getMsbD h.acc_low (by omega), hn, BitVec.getMsbD_cast,
    BitVec.getMsbD_append]
  by_cases hin : i < n
  · rw [if_pos hin, if_neg (by omega), getMsbD_topField _ (by omega) hin]
  · rw [if_neg hin, if_pos (by omega), getMsbD_topField _ (by omega) (by omega)]

/-- What stands in the accumulator below that group: the rest of the byte. -/
theorem accept_acc_shiftLeft_six (h : u.Inv cap) (d : Byte) (hn : u.pend.toNat = n) (hle : n ≤ 6) :
    (u.accept d).acc <<< 6 = (d.extractLsb' 0 (n + 2) ++ 0#(14 - n)).cast (by omega) := by
  refine BitVec.eq_of_getMsbD_eq fun i hi => ?_
  rw [BitVec.getMsbD_shiftLeft, accept_acc_getMsbD h.acc_low (by omega), hn, if_neg (by omega), BitVec.getMsbD_cast,
    BitVec.getMsbD_append]
  by_cases hin : n + 2 ≤ i
  · rw [if_pos hin, BitVec.getMsbD_zero, BitVec.getMsbD_of_ge _ _ (by omega)]
  · rw [if_neg hin, getMsbD_field (skip := 6 - n) d (by omega) (by omega)]
    exact congrArg d.getMsbD (by omega)

/-- The group ENC_FINAL emits: the `n` pending bits and zero fill (R108). -/
theorem topGroup_of_pend (h : u.Inv cap) (hn : u.pend.toNat = n) (hgroup : n + m = 6) :
    u.acc.extractLsb' 10 6 = (u.acc.extractLsb' (16 - n) n ++ 0#m).cast hgroup := by
  refine BitVec.eq_of_getMsbD_eq fun i hi => ?_
  rw [getMsbD_topField _ rfl hi, BitVec.getMsbD_cast, BitVec.getMsbD_append]
  by_cases hin : i < n
  · rw [if_neg (by omega), getMsbD_topField _ (by omega) hin]
  · rw [if_pos (by omega), BitVec.getMsbD_zero, getMsbD_of_shiftLeft_eq_zero h.acc_low (by omega)]

end Accumulator

/-! ### ENC_BYTE -/

section EncByte

variable {p : Params} {cap : Nat} {u : EncUnit}

theorem exec_encByte {s : State} (d : Byte) (hfault : s.enc.fault = .noFault) :
    exec (.encByte d) s = .next { s with enc := encByteBody d s.params s.enc } :=
  congrArg Host.Outcome.next (encCommand_of_noFault hfault)

theorem encByteBody_of_not_active (d : Byte) (hphase : u.phase ≠ .active) :
    encByteBody d p u = u.raise .sequenceError := if_pos hphase

theorem encByteBody_of_overflow (d : Byte) (hact : u.phase = .active)
    (hfull : p.encOutCap < u.out.length + symbolsCompleted u.pend) :
    encByteBody d p u = u.raise .outputOverflow := by
  rw [encByteBody, if_neg (not_not.mpr hact), if_pos hfull]

theorem encByteBody_of_fits (d : Byte) (hact : u.phase = .active)
    (hfit : u.out.length + symbolsCompleted u.pend ≤ p.encOutCap) :
    encByteBody d p u = (u.accept d).extract := by
  rw [encByteBody, if_neg (not_not.mpr hact), if_neg (not_lt.mpr hfit)]

/-- With no more than three bits pending a byte completes one symbol. -/
theorem accept_extract_one (h : u.Inv cap) (d : Byte) (hle : u.pend.toNat ≤ 3) :
    (u.accept d).extract = (u.accept d).emitGroup := by
  have hpend := accept_pend_toNat h d
  obtain ⟨hn, -⟩ | ⟨-, he⟩ | ⟨hn, -⟩ := extract_cases (u.accept d)
  · omega
  · exact he
  · omega

/-- With four bits pending a byte completes two. -/
theorem accept_extract_two (h : u.Inv cap) (d : Byte) (hge : 4 ≤ u.pend.toNat) :
    (u.accept d).extract = (u.accept d).emitGroup.emitGroup := by
  have hpend := accept_pend_toNat h d
  obtain ⟨hn, -⟩ | ⟨hn, -⟩ | ⟨-, he⟩ := extract_cases (u.accept d)
  · omega
  · omega
  · exact he

theorem accept_emitGroup (u : EncUnit) (d : Byte) :
    (u.accept d).emitGroup = { u with
      acc := (u.accept d).acc <<< 6, pend := u.pend + 8#4 - 6#4, mod3 := nextMod3 u.mod3,
      out := u.out ++ [alpha ((u.accept d).acc.extractLsb' 10 6)] } := rfl

theorem accept_emitGroup_emitGroup (u : EncUnit) (d : Byte) :
    (u.accept d).emitGroup.emitGroup = { u with
      acc := (u.accept d).acc <<< 6 <<< 6, pend := u.pend + 8#4 - 6#4 - 6#4, mod3 := nextMod3 u.mod3,
      out := u.out ++ [alpha ((u.accept d).acc.extractLsb' 10 6),
        alpha (((u.accept d).acc <<< 6).extractLsb' 10 6)] } :=
  congrArg (fun out => { (u.accept d).emitGroup.emitGroup with out := out }) (List.append_assoc ..)

theorem accept_extract_of_pend_zero (h : u.Inv cap) (d : Byte) (hpend : u.pend = 0#4) :
    (u.accept d).extract = { u with
      acc := d.extractLsb' 0 2 ++ 0#14, pend := 2#4, mod3 := 1#2,
      out := u.out ++ [alpha (d.extractLsb' 2 6)] } := by
  have hn : u.pend.toNat = 0 := by rw [hpend]; rfl
  have hmod : u.mod3 = 0#2 := by simpa [hpend] using encInv_counters h
  have htop : (u.accept d).acc.extractLsb' 10 6 = d.extractLsb' 2 6 := by
    rw [accept_topGroup (m := 6) h d hn rfl, BitVec.zero_width_append]
    rfl
  rw [accept_extract_one h d (by omega), accept_emitGroup, htop, accept_acc_shiftLeft_six h d hn (by decide), hpend,
    hmod]
  rfl

theorem accept_extract_of_pend_two (h : u.Inv cap) (d : Byte) (hpend : u.pend = 2#4) :
    (u.accept d).extract = { u with
      acc := d.extractLsb' 0 4 ++ 0#12, pend := 4#4, mod3 := 2#2,
      out := u.out ++ [alpha (u.acc.extractLsb' 14 2 ++ d.extractLsb' 4 4)] } := by
  have hn : u.pend.toNat = 2 := by rw [hpend]; rfl
  have hmod : u.mod3 = 1#2 := by simpa [hpend] using encInv_counters h
  rw [accept_extract_one h d (by omega), accept_emitGroup, accept_topGroup (m := 4) h d hn rfl,
    accept_acc_shiftLeft_six h d hn (by decide), hpend, hmod]
  rfl

theorem accept_extract_of_pend_four (h : u.Inv cap) (d : Byte) (hpend : u.pend = 4#4) :
    (u.accept d).extract = { u with
      acc := 0x0000#16, pend := 0#4, mod3 := 0#2,
      out := u.out ++ [alpha (u.acc.extractLsb' 12 4 ++ d.extractLsb' 6 2), alpha (d.extractLsb' 0 6)] } := by
  have hn : u.pend.toNat = 4 := by rw [hpend]; rfl
  have hmod : u.mod3 = 2#2 := by simpa [hpend] using encInv_counters h
  have hsecond : ((u.accept d).acc <<< 6).extractLsb' 10 6 = d.extractLsb' 0 6 := by
    rw [accept_acc_shiftLeft_six h d hn (by decide)]
    exact BitVec.extractLsb'_append_eq_left
  have hnone : (u.accept d).acc <<< 6 <<< 6 = 0#16 := by
    have hlow := accept_acc_low h d
    rw [accept_pend_toNat h d, hn] at hlow
    rwa [← BitVec.shiftLeft_add]
  rw [accept_extract_two h d (by omega), accept_emitGroup_emitGroup, hnone, hsecond,
    accept_topGroup (m := 2) h d hn rfl, hpend, hmod]
  rfl

end EncByte

/-- Settles O23: the checks of R206 in their order, and then the byte's groups at each count the invariant admits. -/
theorem encByteFollowsItsRule : Obligations.EncByteFollowsItsRule := by
  intro d s h
  refine ⟨rfl, fun hfault => congrArg Host.Outcome.next (encCommand_of_fault hfault), fun hfault hphase => ?notActive,
    fun hfault hact hfull => ?overflow, fun hfault hact hpend hfit => ?zero, fun hfault hact hpend hfit => ?two,
    fun hfault hact hpend hfit => ?four⟩
  all_goals rw [exec_encByte d hfault]
  case notActive => rw [encByteBody_of_not_active d hphase]; rfl
  case overflow => rw [encByteBody_of_overflow d hact hfull]; rfl
  case zero => rw [encByteBody_of_fits d hact (by rw [hpend]; exact hfit), accept_extract_of_pend_zero h d hpend]
  case two => rw [encByteBody_of_fits d hact (by rw [hpend]; exact hfit), accept_extract_of_pend_two h d hpend]
  case four => rw [encByteBody_of_fits d hact (by rw [hpend]; exact hfit), accept_extract_of_pend_four h d hpend]

/-! ### ENC_FINAL -/

section EncFinal

variable {p : Params} {cap : Nat} {u : EncUnit}

theorem exec_encFinal {s : State} (hfault : s.enc.fault = .noFault) :
    exec .encFinal s = .next { s with enc := encFinalBody s.params s.enc } :=
  congrArg Host.Outcome.next (encCommand_of_noFault hfault)

theorem encFinalBody_of_not_active (hphase : u.phase ≠ .active) :
    encFinalBody p u = u.raise .sequenceError := if_pos hphase

theorem encFinalBody_of_overflow (hact : u.phase = .active)
    (hfull : p.encOutCap < u.out.length + u.tail.length) : encFinalBody p u = u.raise .outputOverflow := by
  rw [encFinalBody, if_neg (not_not.mpr hact), if_pos hfull]

/-- A finished encode: the counters are cleared (R108). -/
theorem encFinalBody_of_fits (hfault : u.fault = .noFault) (hact : u.phase = .active)
    (hfit : u.out.length + u.tail.length ≤ p.encOutCap) :
    encFinalBody p u =
      { phase := .done, acc := 0x0000#16, pend := 0#4, mod3 := 0#2, out := u.out ++ u.tail, fault := .noFault } := by
  rw [encFinalBody, if_neg (not_not.mpr hact), if_neg (not_lt.mpr hfit), hfault]

theorem tail_of_mod3_zero (h : u.Inv cap) (hmod : u.mod3 = 0#2) : u.tail = [] := by
  have hpend : u.pend = 0#4 := by simpa [hmod] using encInv_counters h
  rw [EncUnit.tail, hpend, hmod]
  rfl

theorem tail_of_mod3_one (h : u.Inv cap) (hmod : u.mod3 = 1#2) :
    u.tail = [alpha (u.acc.extractLsb' 14 2 ++ 0#4), 0x3D#8, 0x3D#8] := by
  have hpend : u.pend = 2#4 := by simpa [hmod] using encInv_counters h
  rw [EncUnit.tail, topGroup_of_pend (n := 2) (m := 4) h (by rw [hpend]; rfl) rfl, hpend, hmod]
  rfl

theorem tail_of_mod3_two (h : u.Inv cap) (hmod : u.mod3 = 2#2) :
    u.tail = [alpha (u.acc.extractLsb' 12 4 ++ 0#2), 0x3D#8] := by
  have hpend : u.pend = 4#4 := by simpa [hmod] using encInv_counters h
  rw [EncUnit.tail, topGroup_of_pend (n := 4) (m := 2) h (by rw [hpend]; rfl) rfl, hpend, hmod]
  rfl

theorem tail_length (h : u.Inv cap) :
    u.tail.length = if u.mod3 = 0#2 then 0 else if u.mod3 = 1#2 then 3 else 2 := by
  obtain ⟨-, hmod⟩ | ⟨-, hmod⟩ | ⟨-, hmod⟩ := encInv_counters h
  · simp [tail_of_mod3_zero h hmod, hmod]
  · simp [tail_of_mod3_one h hmod, hmod]
  · simp [tail_of_mod3_two h hmod, hmod]

end EncFinal

/-- Settles O24: the checks of R206 in their order, and then the tail for each `enc_mod3`, which for 0 is empty and
so fits in the buffer that holds the output. -/
theorem encFinalFollowsItsRule : Obligations.EncFinalFollowsItsRule := by
  intro s h
  refine ⟨rfl, fun hfault => congrArg Host.Outcome.next (encCommand_of_fault hfault), fun hfault hphase => ?notActive,
    fun hfault hact hfull => ?overflow, fun hfault hact hmod => ?zero, fun hfault hact hmod hfit => ?one,
    fun hfault hact hmod hfit => ?two⟩
  all_goals rw [exec_encFinal hfault]
  case notActive => rw [encFinalBody_of_not_active hphase]; rfl
  case overflow => rw [encFinalBody_of_overflow hact (by rwa [tail_length h])]; rfl
  case zero =>
    have htail := tail_of_mod3_zero h hmod
    rw [encFinalBody_of_fits hfault hact (by simpa [htail] using h.out_le), htail, List.append_nil]
  case one =>
    have htail := tail_of_mod3_one h hmod
    rw [encFinalBody_of_fits hfault hact (by rw [htail]; exact hfit), htail]
  case two =>
    have htail := tail_of_mod3_two h hmod
    rw [encFinalBody_of_fits hfault hact (by rw [htail]; exact hfit), htail]

end Sys2Proof.Proofs
end

section
/-! The commands compute ENCODE (R109): after any bytes the encoder holds the whole groups of their bit stream as
symbols and the bits left over, and a capacity that a command's output does not fit stops it there (R110, R111). -/

namespace Sys2Proof.Proofs

open Sys2Proof Sys2Proof.Machine Sys2Proof.Machine.Laws

/-! ### The bit stream (R11) -/

theorem streamBit_eq_getMsbD (b : List Byte) (k : Nat) : streamBit b k = (b.getD (k / 8) 0#8).getMsbD (k % 8) := by
  have hbit : k % 8 < 8 := Nat.mod_lt k (by decide)
  simp [streamBit, BitVec.getMsbD_eq_getLsbD, hbit]

theorem streamBit_of_length_le {b : List Byte} {k : Nat} (h : 8 * b.length ≤ k) : streamBit b k = false := by
  rw [streamBit_eq_getMsbD, List.getD_eq_default _ _ (by omega), BitVec.getMsbD_zero]

theorem streamBit_append_of_lt {b : List Byte} (c : List Byte) {k : Nat} (h : k < 8 * b.length) :
    streamBit (b ++ c) k = streamBit b k := by
  rw [streamBit, List.getD_append _ _ _ _ (by omega), streamBit]

theorem streamBit_append_byte (b : List Byte) (d : Byte) (i : Nat) :
    streamBit (b ++ [d]) (8 * b.length + i) = d.getMsbD i := by
  by_cases hi : i < 8
  · have hbyte : (8 * b.length + i) / 8 = b.length := by omega
    have hbit : (8 * b.length + i) % 8 = i := by omega
    rw [streamBit_eq_getMsbD, hbyte, hbit, List.getD_append_right _ _ _ _ le_rfl, Nat.sub_self]
    rfl
  · rw [streamBit_of_length_le (by simp; omega), BitVec.getMsbD_of_ge _ _ (by omega)]

theorem streamGroup_getMsbD (b : List Byte) (k : Nat) {i : Nat} (hi : i < 6) :
    (streamGroup b k).getMsbD i = streamBit b (6 * k + i) := by
  have key : ∀ b0 b1 b2 b3 b4 b5 : Bool, ∀ i < 6,
      (BitVec.ofBool b0 ++ BitVec.ofBool b1 ++ BitVec.ofBool b2 ++ BitVec.ofBool b3 ++ BitVec.ofBool b4
        ++ BitVec.ofBool b5 : Sextet).getMsbD i = [b0, b1, b2, b3, b4, b5].getD i false := by decide
  rw [streamGroup, key _ _ _ _ _ _ i hi]
  interval_cases i <;> rfl

theorem streamGroup_append_of_le {b : List Byte} (c : List Byte) {k : Nat} (h : 6 * (k + 1) ≤ 8 * b.length) :
    streamGroup (b ++ c) k = streamGroup b k :=
  BitVec.eq_of_getMsbD_eq fun i hi => by
    rw [streamGroup_getMsbD _ _ hi, streamGroup_getMsbD _ _ hi, streamBit_append_of_lt c (by omega)]

/-! ### The symbols of the first groups -/

/-- The symbols of the stream's first `q` groups (R101). -/
def streamSymbols (b : List Byte) (q : Nat) : List Byte := (List.range q).map fun k => alpha (streamGroup b k)

theorem streamSymbols_length (b : List Byte) (q : Nat) : (streamSymbols b q).length = q := by
  simp [streamSymbols]

theorem streamSymbols_succ (b : List Byte) (q : Nat) :
    streamSymbols b (q + 1) = streamSymbols b q ++ [alpha (streamGroup b q)] := by
  simp [streamSymbols, List.range_succ]

theorem encodeText_eq (b : List Byte) :
    encodeText b = streamSymbols b (dataSymbols b.length) ++ List.replicate (padSymbols b.length) Config.padByte := rfl

/-- Whole groups of the bytes so far are not changed by what follows. -/
theorem streamSymbols_append_of_le {b : List Byte} (c : List Byte) {q : Nat} (h : 6 * q ≤ 8 * b.length) :
    streamSymbols (b ++ c) q = streamSymbols b q :=
  List.map_congr_left fun k hk => by
    have hkq := List.mem_range.mp hk
    rw [streamGroup_append_of_le c (by omega)]

theorem streamSymbols_prefix_encodeText {b : List Byte} (c : List Byte) {q : Nat} (h : 6 * q ≤ 8 * b.length) :
    streamSymbols b q <+: encodeText (b ++ c) := by
  have hq : q ≤ dataSymbols (b ++ c).length := by
    rw [dataSymbols, List.length_append]; omega
  rw [← streamSymbols_append_of_le c h, encodeText_eq]
  obtain ⟨n, hn⟩ := Nat.exists_eq_add_of_le hq
  rw [hn, streamSymbols, streamSymbols, List.range_add, List.map_append, List.append_assoc]
  exact List.prefix_append _ _

/-! ### The datapath on the stream -/

/-- Inside a command, with the bytes `b` accepted and `q` symbols emitted: the output is those symbols, and the
pending bits are the stream from there on (R109's invariant). -/
structure Emitted (b : List Byte) (q : Nat) (u : EncUnit) : Prop where
  out_eq : u.out = streamSymbols b q
  acc_bits : ∀ i < 16, u.acc.getMsbD i = streamBit b (6 * q + i)
  pend_eq : 6 * q + u.pend.toNat = 8 * b.length

section Datapath

variable {b : List Byte} {q : Nat} {u : EncUnit}

theorem Emitted.acc_low (h : Emitted b q u) : u.acc <<< u.pend.toNat = 0#16 := by
  have hpend := h.pend_eq
  refine BitVec.eq_of_getMsbD_eq fun i hi => ?_
  rw [BitVec.getMsbD_shiftLeft, BitVec.getMsbD_zero]
  by_cases hin : i + u.pend.toNat < 16
  · rw [h.acc_bits _ hin, streamBit_of_length_le (by omega)]
  · exact BitVec.getMsbD_of_ge _ _ (by omega)

theorem Emitted.topGroup (h : Emitted b q u) : u.acc.extractLsb' 10 6 = streamGroup b q :=
  BitVec.eq_of_getMsbD_eq fun i hi => by
    rw [getMsbD_topField _ rfl hi, h.acc_bits i (by omega), streamGroup_getMsbD b q hi]

/-- R107's accumulator write continues the stream by the byte. -/
theorem Emitted.accept (h : Emitted b q u) (hle : u.pend.toNat < 8) (d : Byte) :
    Emitted (b ++ [d]) q (u.accept d) where
  out_eq := by
    have hpend := h.pend_eq
    rw [EncUnit.accept_out, h.out_eq, streamSymbols_append_of_le [d] (by omega)]
  acc_bits i hi := by
    have hpend := h.pend_eq
    rw [accept_acc_getMsbD h.acc_low hle.le]
    by_cases hin : i < u.pend.toNat
    · rw [if_pos hin, h.acc_bits i hi, streamBit_append_of_lt [d] (by omega)]
    · have hpos : 6 * q + i = 8 * b.length + (i - u.pend.toNat) := by omega
      rw [if_neg hin, hpos, streamBit_append_byte]
  pend_eq := by
    have hpend := h.pend_eq
    have hadd : (u.accept d).pend.toNat = u.pend.toNat + 8 := BitVec.toNat_add_of_lt (by simp; omega)
    rw [hadd, List.length_append, List.length_singleton]
    omega

/-- One turn of EXTRACT emits the stream's next group. -/
theorem Emitted.emitGroup (h : Emitted b q u) (hge : 6 ≤ u.pend.toNat) : Emitted b (q + 1) u.emitGroup where
  out_eq := by rw [EncUnit.emitGroup_out, h.out_eq, h.topGroup, streamSymbols_succ]
  acc_bits i hi := by
    have hpend := h.pend_eq
    have hpos : 6 * (q + 1) + i = 6 * q + (i + 6) := by omega
    rw [EncUnit.emitGroup_acc, BitVec.getMsbD_shiftLeft, hpos]
    by_cases hin : i + 6 < 16
    · exact h.acc_bits _ hin
    · rw [BitVec.getMsbD_of_ge _ _ (by omega), streamBit_of_length_le (by omega)]
  pend_eq := by
    have hpend := h.pend_eq
    rw [emitGroup_pend_toNat hge]; omega

/-- How many whole groups `n` bytes hold: R109's `q`. -/
def wholeGroups (n : Nat) : Nat := 8 * n / 6

/-- EXTRACT emits every whole group of the bytes accepted. -/
theorem Emitted.extract (h : Emitted b q u) : Emitted b (wholeGroups b.length) u.extract := by
  have hpend := h.pend_eq
  have hcount : wholeGroups b.length = q + u.pend.toNat / 6 := by unfold wholeGroups; omega
  rw [hcount]
  obtain ⟨hn, he⟩ | ⟨hn, he⟩ | ⟨hn, he⟩ := extract_cases u <;> rw [hn, he]
  · exact h
  · exact h.emitGroup (by omega)
  · exact (h.emitGroup (by omega)).emitGroup (by rw [emitGroup_pend_toNat (by omega)]; omega)

end Datapath

/-! ### The encoder between two commands of an encode -/

/-- The encoder after ENC_INIT and one ENC_BYTE for each byte of `b`, none of which faulted (R109). -/
structure Encoding (b : List Byte) (u : EncUnit) : Prop where
  emitted : Emitted b (wholeGroups b.length) u
  mod3_eq : u.mod3.toNat = b.length % 3
  phase_eq : u.phase = .active
  fault_eq : u.fault = .noFault

/-- The encoder stopped by a capacity too small for `text`: the fault, and what fitted of it (R111). -/
structure Overflowed (cap : Nat) (text : List Byte) (u : EncUnit) : Prop where
  fault_eq : u.fault = .outputOverflow
  out_le : u.out.length ≤ cap
  out_prefix : u.out <+: text

section Encode

variable {p : Params} {b : List Byte} {u : EncUnit}

theorem Encoding.out_length (h : Encoding b u) : u.out.length = wholeGroups b.length := by
  rw [h.emitted.out_eq, streamSymbols_length]

theorem Encoding.out_prefix (h : Encoding b u) (c : List Byte) : u.out <+: encodeText (b ++ c) := by
  rw [h.emitted.out_eq]
  exact streamSymbols_prefix_encodeText c (by unfold wholeGroups; omega)

theorem encInitBody_encoding (hfault : u.fault = .noFault) : Encoding [] (encInitBody p u) where
  emitted :=
    { out_eq := rfl
      acc_bits := fun i _ => by rw [streamBit_of_length_le (Nat.zero_le _)]; exact BitVec.getMsbD_zero
      pend_eq := rfl }
  mod3_eq := rfl
  phase_eq := rfl
  fault_eq := hfault

theorem Encoding.accept_extract (h : Encoding b u) (d : Byte) : Encoding (b ++ [d]) (u.accept d).extract := by
  obtain ⟨hphase, hmod3, hfault⟩ := extract_frame (u.accept d)
  have hpend := h.emitted.pend_eq
  exact {
    emitted := (h.emitted.accept (by unfold wholeGroups at hpend; omega) d).extract
    mod3_eq := by
      rw [hmod3, EncUnit.accept_mod3, nextMod3_toNat, h.mod3_eq, List.length_append]
      exact Nat.mod_add_mod ..
    phase_eq := hphase.trans h.phase_eq
    fault_eq := hfault.trans h.fault_eq }

/-- What stands in the output once ENC_BYTE's symbols do. -/
theorem Encoding.symbolsCompleted_eq (h : Encoding b u) :
    u.out.length + symbolsCompleted u.pend = wholeGroups (b.length + 1) := by
  have hpend := h.emitted.pend_eq
  rw [h.out_length, symbolsCompleted]
  unfold wholeGroups at *
  omega

/-- ENC_FINAL's partial group is the stream's last, zero filled, and its padding is ENCODE's (R109). -/
theorem Encoding.out_append_tail (h : Encoding b u) : u.out ++ u.tail = encodeText b := by
  have hpend := h.emitted.pend_eq
  have hpad : padCount u.mod3 = padSymbols b.length := by
    rw [padCount, h.mod3_eq]
    unfold padSymbols
    split <;> omega
  rw [EncUnit.tail, hpad, h.emitted.topGroup, h.emitted.out_eq, encodeText_eq, ← List.append_assoc]
  congr 1
  split
  · have hlast : dataSymbols b.length = wholeGroups b.length + 1 := by
      unfold dataSymbols wholeGroups at *; omega
    rw [hlast, streamSymbols_succ]
  · have hall : dataSymbols b.length = wholeGroups b.length := by
      unfold dataSymbols wholeGroups at *; omega
    rw [hall, List.append_nil]

theorem Encoding.tail_length_eq (h : Encoding b u) : u.out.length + u.tail.length = encodedLength b.length := by
  rw [← List.length_append, h.out_append_tail, encodeText_length, dataSymbols_add_padSymbols]

theorem wholeGroups_le_encodedLength (n : Nat) : wholeGroups n ≤ encodedLength n := by
  unfold wholeGroups encodedLength; omega

theorem wholeGroups_mono {m n : Nat} (h : m ≤ n) : wholeGroups m ≤ wholeGroups n := by
  unfold wholeGroups; omega

/-! ### Runs of command words -/

theorem decode_encode (i : Instr) : decode (encode i) = .command i := (decodeOfEncodeIsTheCommand i).2

theorem wordEnc_encInit (hfault : u.fault = .noFault) : wordEnc (encode .encInit) p u = encInitBody p u := by
  rw [wordEnc, if_pos hfault, decode_encode]

theorem wordEnc_encByte (hfault : u.fault = .noFault) (d : Byte) :
    wordEnc (encode (.encByte d)) p u = encByteBody d p u := by
  rw [wordEnc, if_pos hfault, decode_encode]

theorem wordEnc_encFinal (hfault : u.fault = .noFault) : wordEnc (encode .encFinal) p u = encFinalBody p u := by
  rw [wordEnc, if_pos hfault, decode_encode]

theorem runEnc_of_fault (hfault : u.fault ≠ .noFault) (ws : List Word16) : runEnc p u ws = u := by
  induction ws with
  | nil => rfl
  | cons w ws ih => rw [runEnc, List.foldl_cons, wordEnc_of_fault hfault]; exact ih

theorem runEnc_append (ws vs : List Word16) : runEnc p u (ws ++ vs) = runEnc p (runEnc p u ws) vs :=
  List.foldl_append

/-- One ENC_BYTE word for each byte. -/
def byteWords (ds : List Byte) : List Word16 := ds.map fun d => encode (.encByte d)

/-- ENC_BYTE for each byte of `ds`: each one's symbols fit, or the first whose symbols do not stops the encode. -/
theorem runEnc_byteWords (h : Encoding b u) (hcap : u.out.length ≤ p.encOutCap) (ds : List Byte) :
    (wholeGroups (b ++ ds).length ≤ p.encOutCap ∧ Encoding (b ++ ds) (runEnc p u (byteWords ds)))
    ∨ (p.encOutCap < wholeGroups (b ++ ds).length
        ∧ Overflowed p.encOutCap (encodeText (b ++ ds)) (runEnc p u (byteWords ds))) := by
  induction ds generalizing b u with
  | nil =>
    rw [List.append_nil]
    exact .inl ⟨h.out_length ▸ hcap, h⟩
  | cons d ds ih =>
    have hsymbols := h.symbolsCompleted_eq
    have hword : runEnc p u (byteWords (d :: ds)) = runEnc p (encByteBody d p u) (byteWords ds) :=
      congrArg (runEnc p · (byteWords ds)) (wordEnc_encByte h.fault_eq d)
    rw [hword]
    by_cases hfit : u.out.length + symbolsCompleted u.pend ≤ p.encOutCap
    · have hnext := h.accept_extract d
      rw [encByteBody_of_fits d h.phase_eq hfit]
      have hrest := ih hnext (by rw [hnext.out_length, List.length_append]; exact hsymbols ▸ hfit)
      rwa [List.append_assoc] at hrest
    · rw [encByteBody_of_overflow d h.phase_eq (not_le.mp hfit), runEnc_of_fault (by simp)]
      have hmono := wholeGroups_mono (m := b.length + 1) (n := (b ++ d :: ds).length) (by simp)
      exact .inr ⟨by omega, { fault_eq := rfl, out_le := hcap, out_prefix := h.out_prefix _ }⟩

/-- The encoder after R109's sequence when nothing overflowed. -/
def encDone (b : List Byte) : EncUnit :=
  { phase := .done, acc := 0x0000#16, pend := 0#4, mod3 := 0#2, out := encodeText b, fault := .noFault }

theorem runEnc_init (hfault : u.fault = .noFault) (ws : List Word16) :
    runEnc p u (encode .encInit :: ws) = runEnc p (encInitBody p u) ws :=
  congrArg (runEnc p · ws) (wordEnc_encInit hfault)

/-- ENC_INIT and one ENC_BYTE for each byte, from any unfaulted encoder. -/
theorem runEnc_init_byteWords (hfault : u.fault = .noFault) (b : List Byte) :
    (wholeGroups b.length ≤ p.encOutCap ∧ Encoding b (runEnc p u (encode .encInit :: byteWords b)))
    ∨ (p.encOutCap < wholeGroups b.length
        ∧ Overflowed p.encOutCap (encodeText b) (runEnc p u (encode .encInit :: byteWords b))) := by
  rw [runEnc_init hfault]
  exact runEnc_byteWords (encInitBody_encoding hfault) (Nat.zero_le _) b

theorem encodeWords_eq_cons (b : List Byte) : encodeWords b = (encode .encInit :: byteWords b) ++ [encode .encFinal] :=
  encodeWords_eq b

/-- R109's whole sequence, by whether the text fits. -/
theorem runEnc_encodeWords (hfault : u.fault = .noFault) (b : List Byte) :
    (encodedLength b.length ≤ p.encOutCap ∧ runEnc p u (encodeWords b) = encDone b)
    ∨ (p.encOutCap < encodedLength b.length
        ∧ Overflowed p.encOutCap (encodeText b) (runEnc p u (encodeWords b))) := by
  rw [encodeWords_eq_cons, runEnc_append]
  obtain ⟨hcap, hrun⟩ | ⟨hcap, hrun⟩ := runEnc_init_byteWords (p := p) hfault b
  · generalize runEnc p u _ = v at hrun ⊢
    have hlen := hrun.tail_length_eq
    have hword : runEnc p v [encode .encFinal] = encFinalBody p v := wordEnc_encFinal hrun.fault_eq
    rw [hword]
    by_cases hfit : v.out.length + v.tail.length ≤ p.encOutCap
    · rw [encFinalBody_of_fits hrun.fault_eq hrun.phase_eq hfit, hrun.out_append_tail]
      exact .inl ⟨by omega, rfl⟩
    · rw [encFinalBody_of_overflow hrun.phase_eq (not_le.mp hfit)]
      exact .inr ⟨by omega, {
        fault_eq := rfl
        out_le := hrun.out_length.trans_le hcap
        out_prefix := by simpa using hrun.out_prefix [] }⟩
  · rw [runEnc_of_fault (by simp [hrun.fault_eq])]
    exact .inr ⟨hcap.trans_le (wholeGroups_le_encodedLength _), hrun⟩

/-- A first part of R109's sequence is a shorter one's without ENC_FINAL, or the whole. -/
theorem take_encodeWords (b : List Byte) (k : Nat) :
    (encodeWords b).take (k + 1) = encode .encInit :: byteWords (b.take k)
    ∨ (encodeWords b).take (k + 1) = encodeWords b := by
  have hlen : (encodeWords b).length = b.length + 2 := by simp [encodeWords, encodeCommands]
  by_cases hk : k ≤ b.length
  · rw [encodeWords_eq_cons, List.take_append_of_le_length (by simpa [byteWords] using hk), List.take_succ_cons,
      byteWords, ← List.map_take]
    exact .inl rfl
  · exact .inr (List.take_of_length_le (by omega))

end Encode

/-! ### The statements -/

/-- Settles O26: in any interleaving the encoder's end is the fold of its own words (R59), which is ENCODE's text when
that fits. -/
theorem encoderCommandsComputeEncode : Obligations.EncoderCommandsComputeEncode := by
  intro s es b hfault hes hwords hcap
  obtain ⟨t, hrun, henc, -, hhost, -⟩ := run_events es (s.withEvents es) s.host hes rfl
  refine ⟨t, hrun, henc.trans ?_, hhost⟩
  rw [hwords]
  obtain ⟨-, hdone⟩ | ⟨hsmall, -⟩ := runEnc_encodeWords (p := s.params) hfault b
  · exact hdone
  · exact absurd hcap (not_le.mpr hsmall)

/-- Settles O27: a first part of the sequence leaves the symbols of the whole groups so far, or the whole text. -/
theorem partialEncodeIsAPrefixOfTheText : Obligations.PartialEncodeIsAPrefixOfTheText := by
  intro s es b k hfault hes hwords hcap
  obtain ⟨t, hrun, henc, -⟩ := run_withEvents s hes
  refine ⟨t, hrun, ?_⟩
  rw [henc, hwords]
  obtain hcut | hwhole := take_encodeWords b k
  · have hgroups : wholeGroups (b.take k).length ≤ s.params.encOutCap :=
      ((wholeGroups_mono (List.length_take_le' k b)).trans (wholeGroups_le_encodedLength _)).trans hcap
    rw [hcut]
    obtain ⟨-, hpart⟩ | ⟨hsmall, -⟩ := runEnc_init_byteWords (p := s.params) hfault (b.take k)
    · exact ⟨hpart.fault_eq, by simpa using hpart.out_prefix (b.drop k)⟩
    · exact absurd hgroups (not_le.mpr hsmall)
  · rw [hwhole]
    obtain ⟨-, hdone⟩ | ⟨hsmall, -⟩ := runEnc_encodeWords (p := s.params) hfault b
    · rw [hdone]
      exact ⟨rfl, List.prefix_rfl⟩
    · exact absurd hcap (not_le.mpr hsmall)

/-- Settles O28: the text does not fit, so that some command of the sequence overflows, and every word after it is
ignored (R205). -/
theorem tooSmallACapacityOverflows : Obligations.TooSmallACapacityOverflows := by
  intro s es b hfault hes hwords hcap
  obtain ⟨t, hrun, henc, -⟩ := run_withEvents s hes
  refine ⟨t, hrun, ?_⟩
  rw [henc, hwords]
  obtain ⟨hfits, -⟩ | ⟨-, hover⟩ := runEnc_encodeWords (p := s.params) hfault b
  · exact absurd hfits (not_le.mpr hcap)
  · exact ⟨hover.fault_eq, hover.out_le, hover.out_prefix⟩

end Sys2Proof.Proofs
end

section
/-! The validator REV (R130), and the three decoder commands, each with its whole effect (R133, R137, R138). -/

namespace Sys2Proof.Proofs

open Sys2Proof Sys2Proof.Machine Sys2Proof.Machine.Laws

/-! ### The validator -/

/-- R130's table read off the byte as a number. -/
theorem rev_eq_toNat (c : Byte) :
    rev c =
      if 0x41 ≤ c.toNat ∧ c.toNat ≤ 0x5A then .idx (BitVec.ofNat 6 (c.toNat - 0x41))
      else if 0x61 ≤ c.toNat ∧ c.toNat ≤ 0x7A then .idx (BitVec.ofNat 6 (c.toNat - 0x47))
      else if 0x30 ≤ c.toNat ∧ c.toNat ≤ 0x39 then .idx (BitVec.ofNat 6 (c.toNat + 0x04))
      else if c.toNat = 0x2B then .idx 62#6
      else if c.toNat = 0x2F then .idx 63#6
      else if c.toNat = 0x3D then .pad
      else .invalid := by
  revert c; decide

/-- Settles O30: the ranges are the branches of the table, and the three counts go through the 256 bytes. -/
theorem validatorClassifiesEveryByte : Obligations.ValidatorClassifiesEveryByte := by
  refine ⟨fun c => ?ranges, rev_alpha, rfl, rfl, rfl⟩
  case ranges =>
    rw [rev_eq_toNat]
    refine ⟨fun hlo hhi => ?upper, fun hlo hhi => ?lower, fun hlo hhi => ?digit, fun h => ?plus, fun h => ?slash,
      fun h => ?pad, fun h => ?invalid⟩
    case upper => rw [if_pos ⟨hlo, hhi⟩]
    case lower => rw [if_neg (by omega), if_pos ⟨hlo, hhi⟩]
    case digit => rw [if_neg (by omega), if_neg (by omega), if_pos ⟨hlo, hhi⟩]
    case plus => simp [h]
    case slash => simp [h]
    case pad => simp [h]
    case invalid =>
      rw [if_neg (by omega), if_neg (by omega), if_neg (by omega), if_neg (by omega), if_neg (by omega),
        if_neg (by omega)]

/-! ### DEC_INIT -/

/-- The words beside DEC_INIT's own in the INIT row (R75). -/
theorem decode_decInit_with_operand {w : Word16} (hlo : 0x0401 ≤ w.toNat) (hhi : w.toNat ≤ 0x04FF) :
    decode w = .illegal .dec .operandNotZero := by
  have hbit : w.toNat / 2 ^ 10 % 2 = 1 := by omega
  have hunit : unitOfWord w = .dec := by
    rw [unitOfWord_eq_dec_iff, BitVec.getLsbD, Nat.testBit_eq_decide_div_mod_eq, hbit]
    rfl
  rw [decode_eq_toNat, if_neg (by omega), if_pos (by omega), if_neg (by omega), hunit]

theorem exec_decInit {s : State} (hfault : s.dec.fault = .noFault) :
    exec .decInit s = .next { s with dec := decInitBody s.params s.dec } :=
  congrArg Host.Outcome.next (decCommand_of_noFault hfault)

/-- Settles O31: the body writes every field but the fault, and a word beside DEC_INIT's is illegal. -/
theorem decInitFollowsItsRule : Obligations.DecInitFollowsItsRule := by
  intro s
  refine ⟨rfl, fun hfault => ?init, fun hfault => congrArg Host.Outcome.next (decCommand_of_fault hfault),
    fun w hlo hhi hfault => step_illegal_dec (decode_decInit_with_operand hlo hhi) hfault s.host⟩
  case init => rw [exec_decInit hfault, decInitBody, hfault]

/-! ### Phases in which no decode is in progress -/

theorem not_doneErr_and_not_active {ph : DecPhase} (h : ph = .idle ∨ ph = .doneOk) :
    ph ≠ .doneErr ∧ ph ≠ .active := by
  obtain rfl | rfl := h <;> decide

/-! ### DEC_FINAL -/

section DecFinal

variable {p : Params} {u : DecUnit}

theorem exec_decFinal {s : State} (hfault : s.dec.fault = .noFault) :
    exec .decFinal s = .next { s with dec := decFinalBody s.params s.dec } :=
  congrArg Host.Outcome.next (decCommand_of_noFault hfault)

theorem decFinalBody_of_doneErr (hphase : u.phase = .doneErr) : decFinalBody p u = u := if_pos hphase

theorem decFinalBody_of_not_started (hphase : u.phase = .idle ∨ u.phase = .doneOk) :
    decFinalBody p u = u.raise .sequenceError := by
  obtain ⟨herr, hact⟩ := not_doneErr_and_not_active hphase
  rw [decFinalBody, if_neg herr, if_pos hact]

theorem decFinalBody_of_active (hact : u.phase = .active) :
    decFinalBody p u =
      if u.held ≠ 0#4 then u.fail .invalidPadding (u.held.setWidth 8) else { u with phase := .doneOk } := by
  rw [decFinalBody, if_neg (by simp [hact]), if_neg (not_not.mpr hact)]

end DecFinal

/-- Settles O33: the checks of R206 in their order, and then the result by whether bits are held. -/
theorem decFinalFollowsItsRule : Obligations.DecFinalFollowsItsRule := by
  intro s
  refine ⟨rfl, fun hfault => congrArg Host.Outcome.next (decCommand_of_fault hfault), fun hfault hphase => ?doneErr,
    fun hfault hphase => ?notStarted, fun hfault hact hheld => ?leftover, fun hfault hact hheld => ?done⟩
  all_goals rw [exec_decFinal hfault]
  case doneErr => rw [decFinalBody_of_doneErr hphase]
  case notStarted => rw [decFinalBody_of_not_started hphase]; rfl
  case leftover =>
    rw [decFinalBody_of_active hact, if_pos hheld, BitVec.setWidth_eq_append (by decide : 4 ≤ 8)]
    rfl
  case done => rw [decFinalBody_of_active hact, if_neg (not_not.mpr hheld)]

/-! ### The inserted symbol's bits (R134) -/

/-- The symbol stands directly below the `n` held bits. -/
theorem symbol_getMsbD {n : Nat} (hn : n ≤ 10) (v : Sextet) (i : Nat) :
    (v.setWidth 16 <<< (10 - n)).getMsbD i = (decide (n ≤ i) && v.getMsbD (i - n)) := by
  have hle : 16 - 6 ≤ i + (10 - n) ↔ n ≤ i := by omega
  have hidx : i + (10 - n) + 6 - 16 = i - n := by omega
  rw [BitVec.getMsbD_shiftLeft, BitVec.getMsbD_setWidth, hidx]
  simp only [hle]

/-- Below no held bit the symbol stands at the top. -/
theorem symbol_at_top (v : Sextet) : v.setWidth 16 <<< (10 - 0) = v ++ 0#10 := by
  refine BitVec.eq_of_getMsbD_eq fun i hi => ?_
  rw [symbol_getMsbD (Nat.zero_le _), BitVec.getMsbD_append, BitVec.getMsbD_zero, decide_eq_true (Nat.zero_le i),
    Bool.true_and, Nat.sub_zero]
  split
  · exact BitVec.getMsbD_of_ge _ _ ‹_›
  · rfl

/-- What a symbol adds to the byte it completes: its top bits, below the `n` held ones. -/
theorem symbol_topByte {n m : Nat} (v : Sextet) (hlo : 2 ≤ n) (hbyte : n + m = 8) :
    (v.setWidth 16 <<< (10 - n)).extractLsb' 8 8 = (0#n ++ v.extractLsb' (6 - m) m).cast hbyte := by
  refine BitVec.eq_of_getMsbD_eq fun i hi => ?_
  rw [getMsbD_topField _ rfl hi, symbol_getMsbD (by omega), BitVec.getMsbD_cast, BitVec.getMsbD_append]
  by_cases hin : n ≤ i
  · rw [if_pos hin, getMsbD_topField _ (by omega) (by omega), decide_eq_true hin, Bool.true_and]
  · rw [if_neg hin, BitVec.getMsbD_zero, decide_eq_false hin, Bool.false_and]

/-- What is left of the symbol once that byte is shifted out: its other bits, at the top. -/
theorem symbol_shiftLeft_eight {n k : Nat} (v : Sextet) (hk : k + 2 = n) (hhi : k ≤ 6) :
    v.setWidth 16 <<< (10 - n) <<< 8 = (v.extractLsb' 0 k ++ 0#(16 - k)).cast (by omega) := by
  refine BitVec.eq_of_getMsbD_eq fun i hi => ?_
  rw [BitVec.getMsbD_shiftLeft, symbol_getMsbD (by omega), BitVec.getMsbD_cast, BitVec.getMsbD_append,
    decide_eq_true (by omega), Bool.true_and]
  by_cases hin : k ≤ i
  · rw [if_pos hin, BitVec.getMsbD_zero, BitVec.getMsbD_of_ge _ _ (by omega)]
  · rw [if_neg hin, getMsbD_field (skip := 6 - k) v (by omega) (by omega)]
    exact congrArg v.getMsbD (by omega)

/-! ### DEC_CHAR -/

section DecChar

variable {p : Params} {cap : Nat} {u : DecUnit} {c : Byte} {v : Sextet}

theorem exec_decChar {s : State} (c : Byte) (hfault : s.dec.fault = .noFault) :
    exec (.decChar c) s = .next { s with dec := decCharBody c s.params s.dec } :=
  congrArg Host.Outcome.next (decCommand_of_noFault hfault)

theorem decCharBody_of_doneErr (c : Byte) (hphase : u.phase = .doneErr) : decCharBody c p u = u := if_pos hphase

theorem decCharBody_of_not_started (c : Byte) (hphase : u.phase = .idle ∨ u.phase = .doneOk) :
    decCharBody c p u = u.raise .sequenceError := by
  obtain ⟨herr, hact⟩ := not_doneErr_and_not_active hphase
  rw [decCharBody, if_neg herr, if_pos hact]

theorem decCharBody_of_active (c : Byte) (hact : u.phase = .active) : decCharBody c p u = decCharActive c p u := by
  rw [decCharBody, if_neg (by simp [hact]), if_neg (not_not.mpr hact)]

theorem decCharBody_of_invalid (hact : u.phase = .active) (hrev : rev c = .invalid) :
    decCharBody c p u = u.fail .invalidSymbol c := by
  simp only [decCharBody_of_active c hact, decCharActive, hrev]

theorem decCharBody_of_pad_underflow (hact : u.phase = .active) (hrev : rev c = .pad) (hheld : u.held.toNat < 2) :
    decCharBody c p u = u.raise .padUnderflow := by
  simp only [decCharBody_of_active c hact, decCharActive, hrev, DecUnit.padStep, if_pos hheld]

/-- After PADSTEP RECON has nothing to output (R137). -/
theorem decCharBody_of_pad (hact : u.phase = .active) (hrev : rev c = .pad) (hlo : 2 ≤ u.held.toNat)
    (hhi : u.held.toNat < 10) : decCharBody c p u = { u with held := BitVec.ofNat 4 (u.held.toNat - 2) } := by
  have hnot : ¬ u.held.toNat < 2 := not_lt.mpr hlo
  have hheld : u.padStep.held.toNat = u.held.toNat - 2 := padStep_held_toNat hlo
  have hstep : u.padStep = { u with held := BitVec.ofNat 4 (u.held.toNat - 2) } := by
    rw [← hheld, BitVec.ofNat_toNat, BitVec.setWidth_eq, DecUnit.padStep, if_neg hnot]
  simp only [decCharBody_of_active c hact, decCharActive, hrev, if_neg hnot]
  rw [recon_eq, if_neg (by omega), hstep]

theorem decCharBody_of_overflow (hact : u.phase = .active) (hrev : rev c = .idx v)
    (hfull : p.decOutCap < u.out.length + bytesCompleted u.held) : decCharBody c p u = u.raise .outputOverflow := by
  simp only [decCharBody_of_active c hact, decCharActive, hrev, if_pos hfull]

theorem decCharBody_of_fits (hact : u.phase = .active) (hrev : rev c = .idx v)
    (hfit : u.out.length + bytesCompleted u.held ≤ p.decOutCap) : decCharBody c p u = (u.insert v).recon := by
  simp only [decCharBody_of_active c hact, decCharActive, hrev, if_neg (not_lt.mpr hfit)]

/-- With no bit held a symbol completes no byte. -/
theorem insert_recon_of_held_zero (v : Sextet) (hheld : u.held = 0#4) :
    (u.insert v).recon = { u with acc := u.acc ||| (v ++ 0#10), held := 6#4 } := by
  rw [← symbol_at_top, recon_eq, DecUnit.insert, hheld]
  rfl

/-- With `n` bits held a symbol completes one: the bits below the held ones are ORed into it (R134, R142), and the
`k` bits the symbol has left stand alone in the accumulator. -/
theorem insert_recon_of_held {n m k : Nat} (h : u.Inv cap) (v : Sextet) (hn : u.held.toNat = n) (hbyte : n + m = 8)
    (hrest : m + k = 6) :
    (u.insert v).recon = { u with
      acc := (v.extractLsb' 0 k ++ 0#(16 - k)).cast (by omega), held := BitVec.ofNat 4 k,
      out := u.out ++ [u.acc.extractLsb' 8 8 ||| (0#n ++ v.extractLsb' (6 - m) m).cast hbyte] } := by
  have hlow : u.acc <<< 8 = 0#16 := by
    rw [BitVec.shiftLeft_add u.acc 6 2, h.acc_low, BitVec.zero_shiftLeft]
  have hacc : (u.insert v).acc <<< 8 = (v.extractLsb' 0 k ++ 0#(16 - k)).cast (by omega) := by
    rw [DecUnit.insert_acc, BitVec.shiftLeft_or_distrib, hlow, BitVec.zero_or, hn,
      symbol_shiftLeft_eight (k := k) v (by omega) (by omega)]
  have htop : (u.insert v).acc.extractLsb' 8 8 =
      u.acc.extractLsb' 8 8 ||| (0#n ++ v.extractLsb' (6 - m) m).cast hbyte := by
    rw [DecUnit.insert_acc, BitVec.extractLsb'_or, hn, symbol_topByte v (by omega) hbyte]
  have hheld : (u.insert v).held - 8#4 = BitVec.ofNat 4 k := by
    rw [DecUnit.insert_held]
    bv_omega
  rw [recon_eq, if_pos (by rw [insert_held_toNat h]; omega), ← hacc, ← htop, ← hheld]
  rfl

theorem decCharBody_of_held_zero (hact : u.phase = .active) (hrev : rev c = .idx v) (hheld : u.held = 0#4)
    (hfit : u.out.length ≤ p.decOutCap) :
    decCharBody c p u = { u with acc := u.acc ||| (v ++ 0#10), held := 6#4 } := by
  rw [decCharBody_of_fits hact hrev (by rw [hheld]; exact hfit), insert_recon_of_held_zero v hheld]

theorem decCharBody_of_held_two (h : u.Inv cap) (hact : u.phase = .active) (hrev : rev c = .idx v)
    (hheld : u.held = 2#4) (hroom : u.out.length < p.decOutCap) :
    decCharBody c p u = { u with
      acc := 0x0000#16, held := 0#4, out := u.out ++ [u.acc.extractLsb' 8 8 ||| (0#2 ++ v)] } := by
  have hn : u.held.toNat = 2 := by rw [hheld]; rfl
  have hnone : v.extractLsb' 0 0 ++ 0#16 = 0x0000#(0 + 16) := by rw [BitVec.zero_width_append]; rfl
  rw [decCharBody_of_fits hact hrev (by rw [hheld]; exact hroom), insert_recon_of_held (m := 6) (k := 0) h v hn rfl rfl,
    BitVec.extractLsb'_eq_self, hnone]
  rfl

theorem decCharBody_of_held_four (h : u.Inv cap) (hact : u.phase = .active) (hrev : rev c = .idx v)
    (hheld : u.held = 4#4) (hroom : u.out.length < p.decOutCap) :
    decCharBody c p u = { u with
      acc := v.extractLsb' 0 2 ++ 0#14, held := 2#4,
      out := u.out ++ [u.acc.extractLsb' 8 8 ||| (0#4 ++ v.extractLsb' 2 4)] } := by
  have hn : u.held.toNat = 4 := by rw [hheld]; rfl
  rw [decCharBody_of_fits hact hrev (by rw [hheld]; exact hroom), insert_recon_of_held (m := 4) (k := 2) h v hn rfl rfl]
  rfl

theorem decCharBody_of_held_six (h : u.Inv cap) (hact : u.phase = .active) (hrev : rev c = .idx v)
    (hheld : u.held = 6#4) (hroom : u.out.length < p.decOutCap) :
    decCharBody c p u = { u with
      acc := v.extractLsb' 0 4 ++ 0#12, held := 4#4,
      out := u.out ++ [u.acc.extractLsb' 8 8 ||| (0#6 ++ v.extractLsb' 4 2)] } := by
  have hn : u.held.toNat = 6 := by rw [hheld]; rfl
  rw [decCharBody_of_fits hact hrev (by rw [hheld]; exact hroom), insert_recon_of_held (m := 2) (k := 4) h v hn rfl rfl]
  rfl

/-- A symbol completes a byte exactly when some bits are held. -/
theorem bytesCompleted_of_held (h : u.Inv cap) (hheld : u.held ≠ 0#4) : bytesCompleted u.held = 1 := by
  obtain hh | hh | hh | hh := h.held_cases
  · exact absurd hh hheld
  all_goals rw [hh]; rfl

end DecChar

/-- Settles O32: the checks of R206 in their order, then the class of the byte, and for a symbol the count of
held bits, which is one of four under the invariant. -/
theorem decCharFollowsItsRule : Obligations.DecCharFollowsItsRule := by
  intro c s h
  refine ⟨rfl, fun hfault => congrArg Host.Outcome.next (decCommand_of_fault hfault), fun hfault hphase => ?doneErr,
    fun hfault hphase => ?notStarted, fun hfault hact hrev => ?invalid, fun hfault hact hrev hlt => ?underflow,
    fun hfault hact hrev hle => ?pad, fun v hrev hfault hact => ⟨fun hheld => ?zero, fun hheld hfull => ?overflow,
      fun hheld hroom => ?two, fun hheld hroom => ?four, fun hheld hroom => ?six⟩⟩
  all_goals rw [exec_decChar c hfault]
  case doneErr => rw [decCharBody_of_doneErr c hphase]
  case notStarted => rw [decCharBody_of_not_started c hphase]; rfl
  case invalid => rw [decCharBody_of_invalid hact hrev]; rfl
  case underflow => rw [decCharBody_of_pad_underflow hact hrev hlt]; rfl
  case pad => rw [decCharBody_of_pad hact hrev hle (by have := decInv_held_le h; omega)]
  case zero => rw [decCharBody_of_held_zero hact hrev hheld h.out_le]
  case overflow => rw [decCharBody_of_overflow hact hrev (by rw [bytesCompleted_of_held h hheld]; omega)]; rfl
  case two => rw [decCharBody_of_held_two h hact hrev hheld hroom]
  case four => rw [decCharBody_of_held_four h hact hrev hheld hroom]
  case six => rw [decCharBody_of_held_six h hact hrev hheld hroom]

end Sys2Proof.Proofs
end

section
/-! DECODE as a contract (R131): what one character does to its variables, what its outcomes carry (R132), how the
bits are counted (R145), and that it reads ENCODE's text back (R143, R144). -/

namespace Sys2Proof.Proofs

open Sys2Proof Sys2Proof.Machine Sys2Proof.Machine.Laws

/-! ### One character -/

/-- R131's line for an alphabet symbol. -/
def insertVars (v : DecodeVars) (x : Sextet) : DecodeVars :=
  { v with acc := v.acc ||| (x.setWidth 16 <<< (10 - v.held)), held := v.held + 6 }

/-- R131's line for a padding symbol. -/
def padVars (v : DecodeVars) : DecodeVars := { v with held := v.held - 2 }

/-- One turn of R131's inner loop. -/
def emitVars (v : DecodeVars) : DecodeVars :=
  { acc := v.acc <<< 8, held := v.held - 8, out := v.out ++ [v.acc.extractLsb' 8 8] }

@[simp] theorem insertVars_held (v : DecodeVars) (x : Sextet) : (insertVars v x).held = v.held + 6 := rfl

@[simp] theorem padVars_held (v : DecodeVars) : (padVars v).held = v.held - 2 := rfl

@[simp] theorem emitVars_held (v : DecodeVars) : (emitVars v).held = v.held - 8 := rfl

section Character

variable {v v' : DecodeVars} {c : Byte} {x : Sextet} {o : DecodeOutcome}

theorem take_of_idx (hrev : rev c = .idx x) : v.take c = .inl (insertVars v x).drain := by
  simp only [DecodeVars.take, hrev]
  rfl

theorem take_of_pad (hrev : rev c = .pad) (hheld : 2 ≤ v.held) : v.take c = .inl (padVars v).drain := by
  simp only [DecodeVars.take, hrev, if_neg (not_lt.mpr hheld)]
  rfl

theorem take_of_pad_underflow (hrev : rev c = .pad) (hheld : v.held < 2) : v.take c = .inr .padUnderflow := by
  simp only [DecodeVars.take, hrev, if_pos hheld]

theorem take_of_invalid (hrev : rev c = .invalid) : v.take c = .inr (.invalidSymbol c) := by
  simp only [DecodeVars.take, hrev]

/-- The two ways a character lets DECODE go on. -/
theorem take_eq_inl (h : v.take c = .inl v') :
    (∃ x, rev c = .idx x ∧ v' = (insertVars v x).drain) ∨ (rev c = .pad ∧ 2 ≤ v.held ∧ v' = (padVars v).drain) := by
  cases hrev : rev c with
  | idx x => rw [take_of_idx hrev] at h; exact .inl ⟨x, rfl, (Sum.inl.inj h).symm⟩
  | pad =>
    by_cases hheld : 2 ≤ v.held
    · rw [take_of_pad hrev hheld] at h; exact .inr ⟨rfl, hheld, (Sum.inl.inj h).symm⟩
    · rw [take_of_pad_underflow hrev (not_le.mp hheld)] at h; cases h
  | invalid => rw [take_of_invalid hrev] at h; cases h

/-- The two ways a character ends DECODE. -/
theorem take_eq_inr (h : v.take c = .inr o) :
    (rev c = .pad ∧ v.held < 2 ∧ o = .padUnderflow) ∨ (rev c = .invalid ∧ o = .invalidSymbol c) := by
  cases hrev : rev c with
  | idx x => rw [take_of_idx hrev] at h; cases h
  | pad =>
    by_cases hheld : 2 ≤ v.held
    · rw [take_of_pad hrev hheld] at h; cases h
    · have hlt := not_le.mp hheld
      rw [take_of_pad_underflow hrev hlt] at h; exact .inl ⟨rfl, hlt, (Sum.inr.inj h).symm⟩
  | invalid => rw [take_of_invalid hrev] at h; exact .inr ⟨rfl, (Sum.inr.inj h).symm⟩

theorem decodeFrom_of_inl (h : v.take c = .inl v') (t : List Byte) : decodeFrom v (c :: t) = decodeFrom v' t := by
  rw [decodeFrom, h]

theorem decodeFrom_of_inr (h : v.take c = .inr o) (t : List Byte) : decodeFrom v (c :: t) = o := by
  rw [decodeFrom, h]

theorem bytesNeededFrom_of_inl (h : v.take c = .inl v') (t : List Byte) :
    bytesNeededFrom v (c :: t) = bytesNeededFrom v' t := by
  rw [bytesNeededFrom, h]

theorem bytesNeededFrom_of_inr (h : v.take c = .inr o) (t : List Byte) :
    bytesNeededFrom v (c :: t) = v.out.length := by
  rw [bytesNeededFrom, h]

/-! ### The inner loop -/

/-- The bits kept so far: those extracted and those held. -/
def bitsKept (v : DecodeVars) : Nat := 8 * v.out.length + v.held

theorem bitsKept_start : bitsKept DecodeVars.start = 0 := rfl

theorem drainLoop_of_lt (h : v.held < 8) (n : Nat) : DecodeVars.drainLoop n v = v := by
  cases n with
  | zero => rfl
  | succ n => exact if_neg (not_le.mpr h)

theorem drainLoop_of_le (h : 8 ≤ v.held) (n : Nat) :
    DecodeVars.drainLoop (n + 1) v = DecodeVars.drainLoop n (emitVars v) := if_pos h

theorem drainLoop_bitsKept (n : Nat) (v : DecodeVars) : bitsKept (DecodeVars.drainLoop n v) = bitsKept v := by
  induction n generalizing v with
  | zero => rfl
  | succ n ih =>
    by_cases h : 8 ≤ v.held
    · rw [drainLoop_of_le h, ih]
      simp only [bitsKept, emitVars, List.length_append, List.length_singleton]
      omega
    · rw [drainLoop_of_lt (not_le.mp h)]

theorem drainLoop_held {n : Nat} (h : v.held ≤ n) : (DecodeVars.drainLoop n v).held = v.held % 8 := by
  induction n generalizing v with
  | zero => simp [DecodeVars.drainLoop, Nat.le_zero.mp h]
  | succ n ih =>
    by_cases hge : 8 ≤ v.held
    · rw [drainLoop_of_le hge, ih (by rw [emitVars_held]; omega), emitVars_held]
      exact (Nat.mod_eq_sub_mod hge).symm
    · rw [drainLoop_of_lt (not_le.mp hge), Nat.mod_eq_of_lt (not_le.mp hge)]

theorem drain_bitsKept (v : DecodeVars) : bitsKept v.drain = bitsKept v := drainLoop_bitsKept _ v

theorem drain_held (v : DecodeVars) : v.drain.held = v.held % 8 := drainLoop_held le_rfl

theorem drain_out_length (v : DecodeVars) : v.drain.out.length = v.out.length + v.held / 8 := by
  have hbits := drain_bitsKept v
  rw [bitsKept, bitsKept, drain_held] at hbits
  omega

theorem drain_of_lt (h : v.held < 8) : v.drain = v := drainLoop_of_lt h _

/-- Below 16 held bits the inner loop takes one turn. -/
theorem drain_of_le (hge : 8 ≤ v.held) (hlt : v.held < 16) : v.drain = emitVars v := by
  obtain ⟨n, hn⟩ := Nat.exists_eq_add_of_lt (show 0 < v.held by omega)
  rw [DecodeVars.drain, hn, Nat.zero_add, drainLoop_of_le hge, drainLoop_of_lt (by rw [emitVars_held]; omega)]

theorem take_idx_bitsKept : bitsKept (insertVars v x).drain = bitsKept v + 6 := by
  rw [drain_bitsKept]; rfl

theorem take_pad_bitsKept (hheld : 2 ≤ v.held) : bitsKept (padVars v).drain + 2 = bitsKept v := by
  rw [drain_bitsKept]
  simp only [bitsKept, padVars]
  omega

theorem take_held_lt (h : v.take c = .inl v') : v'.held < 8 := by
  obtain ⟨x, -, rfl⟩ | ⟨-, -, rfl⟩ := take_eq_inl h <;> exact drain_held _ ▸ Nat.mod_lt _ (by decide)

/-- Between two characters an even number of bits is held, as R33 has it of the decoder. -/
theorem take_held_even (h : v.take c = .inl v') (heven : v.held % 2 = 0) : v'.held % 2 = 0 := by
  obtain ⟨x, -, rfl⟩ | ⟨-, hheld, rfl⟩ := take_eq_inl h
  · rw [drain_held, insertVars_held]; omega
  · rw [drain_held, padVars_held]; omega

theorem out_length_le_of_take (h : v.take c = .inl v') : v.out.length ≤ v'.out.length := by
  obtain ⟨x, -, rfl⟩ | ⟨-, -, rfl⟩ := take_eq_inl h <;> exact drain_out_length _ ▸ Nat.le_add_right _ _

end Character

/-! ### What the outcomes carry -/

section Outcomes

variable {v : DecodeVars} {t out : List Byte}

theorem decodeFrom_nil_ok (h : decodeFrom v [] = .ok out) : v.held = 0 ∧ v.out = out := by
  rw [decodeFrom] at h
  split at h
  · cases h
  · next hheld => exact ⟨not_not.mp hheld, DecodeOutcome.ok.inj h⟩

theorem decodeFrom_cons_ok {c : Byte} (h : decodeFrom v (c :: t) = .ok out) :
    ∃ v', v.take c = .inl v' ∧ decodeFrom v' t = .ok out := by
  cases htake : v.take c with
  | inl v' => exact ⟨v', rfl, decodeFrom_of_inl htake t ▸ h⟩
  | inr o =>
    rw [decodeFrom_of_inr htake] at h
    obtain ⟨-, -, rfl⟩ | ⟨-, rfl⟩ := take_eq_inr htake <;> cases h

/-- InvalidSymbol carries the first byte the validator rejects: every byte before it let DECODE go on. -/
theorem decodeFrom_invalidSymbol {c : Byte} (h : decodeFrom v t = .invalidSymbol c) :
    ∃ before after, t = before ++ c :: after ∧ rev c = .invalid ∧ ∀ x ∈ before, rev x ≠ .invalid := by
  induction t generalizing v with
  | nil => rw [decodeFrom] at h; split at h <;> cases h
  | cons a t ih =>
    cases htake : v.take a with
    | inl v' =>
      rw [decodeFrom_of_inl htake] at h
      obtain ⟨before, after, rfl, hc, hbefore⟩ := ih h
      have ha : rev a ≠ .invalid := by
        obtain ⟨x, hrev, -⟩ | ⟨hrev, -⟩ := take_eq_inl htake <;> simp [hrev]
      exact ⟨a :: before, after, rfl, hc, List.forall_mem_cons.mpr ⟨ha, hbefore⟩⟩
    | inr o =>
      rw [decodeFrom_of_inr htake] at h
      subst h
      obtain ⟨-, -, ho⟩ | ⟨hrev, ho⟩ := take_eq_inr htake <;> cases ho
      exact ⟨[], t, rfl, hrev, by simp⟩

/-- InvalidPadding carries the count held at the end. -/
theorem decodeFrom_invalidPadding {n : Nat} (h : decodeFrom v t = .invalidPadding n) (heven : v.held % 2 = 0)
    (hlt : v.held < 8) : n = 2 ∨ n = 4 ∨ n = 6 := by
  induction t generalizing v with
  | nil =>
    rw [decodeFrom] at h
    split at h
    · cases h; omega
    · cases h
  | cons a t ih =>
    cases htake : v.take a with
    | inl v' =>
      rw [decodeFrom_of_inl htake] at h
      exact ih h (take_held_even htake heven) (take_held_lt htake)
    | inr o =>
      rw [decodeFrom_of_inr htake] at h
      obtain ⟨-, -, rfl⟩ | ⟨-, rfl⟩ := take_eq_inr htake <;> cases h

/-- Settles O35: an error's payload, by induction on the text. -/
theorem decodeOutcomesCarryTheirPayload : Obligations.DecodeOutcomesCarryTheirPayload :=
  ⟨rfl, fun _ _ => decodeFrom_invalidSymbol, fun _ _ h => decodeFrom_invalidPadding h rfl (by decide)⟩

/-! ### Counting the bits -/

theorem isAlphabetByte_of_idx {c : Byte} {x : Sextet} (h : rev c = .idx x) : isAlphabetByte c = true := by
  simp [isAlphabetByte, h]

theorem isAlphabetByte_of_pad {c : Byte} (h : rev c = .pad) : isAlphabetByte c = false := by
  simp [isAlphabetByte, h]

/-- An accepted text keeps six bits for each symbol and gives two back for each padding symbol. -/
theorem decodeFrom_ok_bits (h : decodeFrom v t = .ok out) :
    8 * out.length + 2 * (t.filter (fun c => rev c == .pad)).length =
      bitsKept v + 6 * (t.filter (fun c => isAlphabetByte c)).length := by
  induction t generalizing v with
  | nil =>
    obtain ⟨hheld, rfl⟩ := decodeFrom_nil_ok h
    simp [bitsKept, hheld]
  | cons a t ih =>
    obtain ⟨v', htake, hok⟩ := decodeFrom_cons_ok h
    have hrest := ih hok
    obtain ⟨x, hrev, rfl⟩ | ⟨hrev, hheld, rfl⟩ := take_eq_inl htake
    · have hsymbol := isAlphabetByte_of_idx hrev
      rw [take_idx_bitsKept] at hrest
      simp only [List.filter_cons, hrev, hsymbol, if_true, List.length_cons, reduceCtorEq, beq_iff_eq, if_false]
      omega
    · have hsymbol := isAlphabetByte_of_pad hrev
      have hbits := take_pad_bitsKept hheld
      simp only [List.filter_cons, hrev, hsymbol, BEq.rfl, if_true, List.length_cons, Bool.false_eq_true, if_false]
      omega

theorem bytesNeededFrom_bits (v : DecodeVars) (t : List Byte) :
    8 * bytesNeededFrom v t ≤ bitsKept v + 6 * t.length := by
  induction t generalizing v with
  | nil => exact Nat.le_add_right _ _
  | cons a t ih =>
    rw [List.length_cons]
    cases htake : v.take a with
    | inl v' =>
      have hrest := ih v'
      rw [bytesNeededFrom_of_inl htake]
      obtain ⟨x, -, rfl⟩ | ⟨-, hheld, rfl⟩ := take_eq_inl htake
      · rw [take_idx_bitsKept] at hrest
        omega
      · have hbits := take_pad_bitsKept hheld
        omega
    | inr o =>
      rw [bytesNeededFrom_of_inr htake, bitsKept]
      omega

/-- DECODE only ever appends (R131). -/
theorem out_length_le_bytesNeededFrom (v : DecodeVars) (t : List Byte) : v.out.length ≤ bytesNeededFrom v t := by
  induction t generalizing v with
  | nil => exact le_rfl
  | cons a t ih =>
    cases htake : v.take a with
    | inl v' => rw [bytesNeededFrom_of_inl htake]; exact (out_length_le_of_take htake).trans (ih v')
    | inr o => rw [bytesNeededFrom_of_inr htake]

/-- An accepted text needs room for the bytes it gives. -/
theorem bytesNeededFrom_of_ok (h : decodeFrom v t = .ok out) : bytesNeededFrom v t = out.length := by
  induction t generalizing v with
  | nil => obtain ⟨-, rfl⟩ := decodeFrom_nil_ok h; rfl
  | cons a t ih =>
    obtain ⟨v', htake, hok⟩ := decodeFrom_cons_ok h
    rw [bytesNeededFrom_of_inl htake, ih hok]

/-- Settles O36: a symbol adds six bits to those kept, a padding symbol takes two away, and the inner loop only
moves eight from the count to the output. -/
theorem decodedLengthCountsTheBits : Obligations.DecodedLengthCountsTheBits := by
  refine ⟨fun t out h => ?length, fun t => ?need⟩
  case length => simpa only [bitsKept_start, Nat.zero_add] using decodeFrom_ok_bits h
  case need =>
    rw [bytesNeeded, Nat.le_div_iff_mul_le (by decide), Nat.mul_comm]
    simpa only [bitsKept_start, Nat.zero_add] using bytesNeededFrom_bits DecodeVars.start t

end Outcomes

/-! ### Reading ENCODE's text -/

theorem streamBit_of_getElem {b : List Byte} {k : Nat} (hk : k < b.length) {i : Nat} (hi : i < 8) :
    streamBit b (8 * k + i) = b[k].getMsbD i := by
  have hbyte : (8 * k + i) / 8 = k := by omega
  have hbit : (8 * k + i) % 8 = i := by omega
  rw [streamBit_eq_getMsbD, hbyte, hbit, List.getD_eq_getElem _ _ hk]

/-- DECODE on the symbols of `b`'s stream, with `q` of them taken and `k` bytes extracted: the output is the first
`k` bytes, and the bits held are the stream from there on. -/
structure Reading (b : List Byte) (q k : Nat) (v : DecodeVars) : Prop where
  out_eq : v.out = b.take k
  held_eq : 8 * k + v.held = 6 * q
  acc_bits : ∀ i < 16, v.acc.getMsbD i = (decide (i < v.held) && streamBit b (8 * k + i))

section Read

variable {b : List Byte} {q k : Nat} {v : DecodeVars}

theorem Reading.insert (h : Reading b q k v) (hle : v.held ≤ 10) :
    Reading b (q + 1) k (insertVars v (streamGroup b q)) where
  out_eq := h.out_eq
  held_eq := by
    have hheld := h.held_eq
    rw [insertVars_held]
    omega
  acc_bits i hi := by
    have hheld := h.held_eq
    rw [insertVars_held, insertVars, BitVec.getMsbD_or, h.acc_bits i hi, symbol_getMsbD hle]
    by_cases hin : i < v.held
    · simp [hin, show ¬ v.held ≤ i by omega, show i < v.held + 6 by omega]
    · by_cases hsym : i - v.held < 6
      · have hpos : 6 * q + (i - v.held) = 8 * k + i := by omega
        rw [streamGroup_getMsbD b q hsym, hpos]
        simp [hin, show v.held ≤ i by omega, show i < v.held + 6 by omega]
      · rw [BitVec.getMsbD_of_ge _ _ (by omega)]
        simp [hin, show ¬ i < v.held + 6 by omega]

theorem Reading.topByte (h : Reading b q k v) (hge : 8 ≤ v.held) (hk : k < b.length) :
    v.acc.extractLsb' 8 8 = b[k] :=
  BitVec.eq_of_getMsbD_eq fun i hi => by
    rw [getMsbD_topField _ rfl hi, h.acc_bits i (by omega), streamBit_of_getElem hk hi, decide_eq_true (by omega),
      Bool.true_and]

theorem Reading.emit (h : Reading b q k v) (hge : 8 ≤ v.held) (hle : v.held ≤ 16) (hk : k < b.length) :
    Reading b q (k + 1) (emitVars v) where
  out_eq := by
    simp only [emitVars]
    rw [h.topByte hge hk, h.out_eq, List.take_append_getElem hk]
  held_eq := by
    have hheld := h.held_eq
    rw [emitVars_held]
    omega
  acc_bits i hi := by
    have hpos : 8 * (k + 1) + i = 8 * k + (i + 8) := by omega
    have hlt : i < v.held - 8 ↔ i + 8 < v.held := by omega
    simp only [emitVars, hlt, hpos]
    rw [BitVec.getMsbD_shiftLeft]
    by_cases hin : i + 8 < 16
    · exact h.acc_bits _ hin
    · rw [BitVec.getMsbD_of_ge _ _ (by omega), decide_eq_false (by omega), Bool.false_and]

/-- One symbol of the stream: the byte it completes, if any, is one of `b`'s, as the zero fill is less than a
byte. -/
theorem Reading.take (h : Reading b q k v) (hlt : v.held < 8) (hq : q < dataSymbols b.length) :
    ∃ k', Reading b (q + 1) k' (insertVars v (streamGroup b q)).drain := by
  have hheld := h.held_eq
  have hnext := h.insert (by omega)
  have hcount := insertVars_held v (streamGroup b q)
  by_cases hge : 8 ≤ v.held + 6
  · have hk : k < b.length := by unfold dataSymbols at hq; omega
    rw [drain_of_le (by omega) (by omega)]
    exact ⟨k + 1, hnext.emit (by omega) (by omega) hk⟩
  · rw [drain_of_lt (by omega)]
    exact ⟨k, hnext⟩

/-- DECODE on the first `q` symbols of the stream, whatever follows them. -/
theorem decodeFrom_streamSymbols (b : List Byte) {q : Nat} (hq : q ≤ dataSymbols b.length) :
    ∃ k v, Reading b q k v ∧ v.held < 8
      ∧ ∀ rest, decodeFrom DecodeVars.start (streamSymbols b q ++ rest) = decodeFrom v rest := by
  induction q with
  | zero =>
    refine ⟨0, DecodeVars.start, { out_eq := rfl, held_eq := rfl, acc_bits := fun i _ => ?_ }, by decide, fun _ => rfl⟩
    simp [DecodeVars.start]
  | succ q ih =>
    obtain ⟨k, v, h, hlt, hrun⟩ := ih (by omega)
    obtain ⟨k', hnext⟩ := h.take hlt (by omega)
    refine ⟨k', _, hnext, by rw [drain_held]; omega, fun rest => ?_⟩
    rw [streamSymbols_succ, List.append_assoc, hrun]
    exact decodeFrom_of_inl (take_of_idx (rev_alpha _)) rest

/-- Padding that takes all held bits away ends DECODE without an error. -/
theorem decodeFrom_padding {n : Nat} (hheld : v.held = 2 * n) (hlt : v.held < 8) :
    decodeFrom v (List.replicate n Config.padByte) = .ok v.out := by
  induction n generalizing v with
  | zero => exact if_neg (not_not.mpr hheld)
  | succ n ih =>
    have hcount := padVars_held v
    rw [List.replicate_succ, decodeFrom_of_inl (take_of_pad rev_padByte (by omega)), drain_of_lt (by omega),
      ih (by omega) (by omega)]
    rfl

/-- R143 of the contracts: the symbols give the bytes, and hold two bits of zero fill for each padding symbol. -/
theorem decodeText_encodeText (b : List Byte) : decodeText (encodeText b) = .ok b := by
  obtain ⟨k, v, h, hlt, hrun⟩ := decodeFrom_streamSymbols b le_rfl
  have hcount := h.held_eq
  have hall : k = b.length := by unfold dataSymbols at hcount; omega
  have hpad : v.held = 2 * padSymbols b.length := by
    unfold dataSymbols at hcount
    unfold padSymbols
    split <;> omega
  rw [decodeText, encodeText_eq, hrun, decodeFrom_padding hpad hlt, h.out_eq, hall, List.take_length]

end Read

/-- Settles O38: DECODE reads back what ENCODE wrote, so encoding again writes the same. -/
theorem decodeOfEncodeText : Obligations.DecodeOfEncodeText := fun b =>
  ⟨decodeText_encodeText b, b, decodeText_encodeText b, rfl⟩

end Sys2Proof.Proofs
end

section
/-! The commands compute DECODE (R139): DEC_CHAR is one character of R131 on the decoder's own fields, and
DEC_FINAL its last test. -/

namespace Sys2Proof.Proofs

open Sys2Proof Sys2Proof.Machine Sys2Proof.Machine.Laws

/-! ### DECODE's variables in the decoder -/

/-- A decode in progress. -/
def activeDecoder (acc : Word16) (held : BitVec 4) (out : List Byte) : DecUnit :=
  { phase := .active, acc := acc, held := held, out := out, err := .noError, info := 0x00#8, fault := .noFault }

/-- The decoder with DECODE's variables in its fields. -/
def decoderAt (v : DecodeVars) : DecUnit := activeDecoder v.acc (BitVec.ofNat 4 v.held) v.out

section Simulation

variable {p : Params} {u : DecUnit} {v v' : DecodeVars} {c : Byte} {x : Sextet}

theorem decInitBody_eq (hfault : u.fault = .noFault) : decInitBody p u = activeDecoder 0x0000#16 0#4 [] := by
  rw [decInitBody, hfault, activeDecoder]

theorem decoderAt_held (hlt : v.held < 16) : (decoderAt v).held.toNat = v.held := by
  simpa [decoderAt, activeDecoder] using hlt

/-- INSERT is R131's line for an alphabet symbol (R134). -/
theorem insert_decoderAt (hlt : v.held < 16) (x : Sextet) : (decoderAt v).insert x = decoderAt (insertVars v x) := by
  rw [DecUnit.insert, decoderAt_held hlt]
  simp only [decoderAt, activeDecoder, insertVars, BitVec.ofNat_add]

/-- RECON is R131's inner loop (R136). -/
theorem recon_decoderAt (hlt : v.held < 16) : (decoderAt v).recon = decoderAt v.drain := by
  rw [recon_eq, decoderAt_held hlt]
  by_cases hge : 8 ≤ v.held
  · have hheld : BitVec.ofNat 4 v.held - 8#4 = BitVec.ofNat 4 (v.held - 8) := by bv_omega
    rw [if_pos hge, drain_of_le hge hlt, decoderAt, decoderAt, emitVars, ← hheld]
    rfl
  · rw [if_neg hge, drain_of_lt (not_le.mp hge)]

/-- A character that lets DECODE go on does the same to the decoder, when the byte it completes fits. -/
theorem decCharBody_decoderAt (hlt : v.held < 8) (htake : v.take c = .inl v') (hfit : v'.out.length ≤ p.decOutCap) :
    decCharBody c p (decoderAt v) = decoderAt v' := by
  have hheld := decoderAt_held (v := v) (by omega)
  obtain ⟨x, hrev, rfl⟩ | ⟨hrev, hge, rfl⟩ := take_eq_inl htake
  · have hstep : ((decoderAt v).insert x).recon = decoderAt (insertVars v x).drain := by
      rw [insert_decoderAt (by omega), recon_decoderAt (by rw [insertVars_held]; omega)]
    have hlen : (decoderAt v).out.length + bytesCompleted (decoderAt v).held =
        (insertVars v x).drain.out.length := by
      rw [drain_out_length, insertVars_held, bytesCompleted, hheld]
      change v.out.length + _ = v.out.length + _
      split <;> omega
    rw [decCharBody_of_fits rfl hrev (hlen.trans_le hfit), hstep]
  · rw [decCharBody_of_pad rfl hrev (by omega) (by omega), hheld, drain_of_lt (by rw [padVars_held]; omega)]
    rfl

/-! ### The outcome -/

/-- How the decoder stands after R139's sequence, for each outcome of DECODE. -/
def EndsWith : DecodeOutcome → DecUnit → Prop
  | .ok out, u => u.fault = .noFault ∧ u.phase = .doneOk ∧ u.err = .noError ∧ u.out = out
  | .invalidSymbol c, u =>
    u.fault = .noFault ∧ u.phase = .doneErr ∧ u.err = .invalidSymbol ∧ u.info = c ∧ u.out = []
  | .invalidPadding n, u =>
    u.fault = .noFault ∧ u.phase = .doneErr ∧ u.err = .invalidPadding ∧ u.info.toNat = n ∧ u.out = []
  | .padUnderflow, u => u.fault = .padUnderflow

theorem wordDec_decInit (hfault : u.fault = .noFault) : wordDec (encode .decInit) p u = decInitBody p u := by
  rw [wordDec, if_pos hfault, decode_encode]

theorem wordDec_decChar (hfault : u.fault = .noFault) (c : Byte) :
    wordDec (encode (.decChar c)) p u = decCharBody c p u := by
  rw [wordDec, if_pos hfault, decode_encode]

theorem wordDec_decFinal (hfault : u.fault = .noFault) : wordDec (encode .decFinal) p u = decFinalBody p u := by
  rw [wordDec, if_pos hfault, decode_encode]

theorem runDec_of_fault (hfault : u.fault ≠ .noFault) (ws : List Word16) : runDec p u ws = u := by
  induction ws with
  | nil => rfl
  | cons w ws ih => rw [runDec, List.foldl_cons, wordDec_of_fault hfault]; exact ih

/-- One DEC_CHAR word for each character, and DEC_FINAL's. -/
def textWords (t : List Byte) : List Word16 := t.map (fun c => encode (.decChar c)) ++ [encode .decFinal]

theorem runDec_decodeWords (hfault : u.fault = .noFault) (t : List Byte) :
    runDec p u (decodeWords t) = runDec p (activeDecoder 0x0000#16 0#4 []) (textWords t) := by
  rw [decodeWords_eq, ← decInitBody_eq (p := p) hfault, ← wordDec_decInit hfault]
  rfl

theorem runDec_textWords_cons (hfault : u.fault = .noFault) (c : Byte) (t : List Byte) :
    runDec p u (textWords (c :: t)) = runDec p (decCharBody c p u) (textWords t) :=
  congrArg (runDec p · (textWords t)) (wordDec_decChar hfault c)

theorem runDec_textWords_nil (hfault : u.fault = .noFault) : runDec p u (textWords []) = decFinalBody p u :=
  wordDec_decFinal hfault

/-- What follows an error is ignored (R201). -/
theorem runDec_of_doneErr (hfault : u.fault = .noFault) (hphase : u.phase = .doneErr) (t : List Byte) :
    runDec p u (textWords t) = u := by
  induction t with
  | nil => rw [runDec_textWords_nil hfault, decFinalBody_of_doneErr hphase]
  | cons c t ih => rw [runDec_textWords_cons hfault, decCharBody_of_doneErr c hphase, ih]

/-- DEC_FINAL is R131's last test. -/
theorem decFinalBody_endsWith (hlt : v.held < 8) : EndsWith (decodeFrom v []) (decFinalBody p (decoderAt v)) := by
  have hheld := decoderAt_held (v := v) (by omega)
  rw [decFinalBody_of_active rfl, decodeFrom]
  by_cases hzero : v.held = 0
  · rw [if_neg (not_not.mpr hzero), if_neg (not_not.mpr (BitVec.eq_of_toNat_eq (by rw [hheld, hzero]; rfl)))]
    exact ⟨rfl, rfl, rfl, rfl⟩
  · have hne : (decoderAt v).held ≠ 0#4 := fun h => hzero (by rw [← hheld, h]; rfl)
    rw [if_pos hzero, if_pos hne]
    exact ⟨rfl, rfl, rfl, by rw [DecUnit.fail_info, BitVec.toNat_setWidth, hheld]; omega, rfl⟩

/-- The characters and DEC_FINAL, from any point of a decode whose bytes all fit. -/
theorem runDec_textWords (t : List Byte) (hlt : v.held < 8) (hneed : bytesNeededFrom v t ≤ p.decOutCap) :
    EndsWith (decodeFrom v t) (runDec p (decoderAt v) (textWords t)) := by
  induction t generalizing v with
  | nil =>
    rw [runDec_textWords_nil rfl]
    exact decFinalBody_endsWith hlt
  | cons c t ih =>
    rw [runDec_textWords_cons rfl]
    cases htake : v.take c with
    | inl v' =>
      rw [bytesNeededFrom_of_inl htake] at hneed
      rw [decodeFrom_of_inl htake,
        decCharBody_decoderAt hlt htake ((out_length_le_bytesNeededFrom v' t).trans hneed)]
      exact ih (take_held_lt htake) hneed
    | inr o =>
      rw [decodeFrom_of_inr htake]
      obtain ⟨hrev, hheld, rfl⟩ | ⟨hrev, rfl⟩ := take_eq_inr htake
      · rw [decCharBody_of_pad_underflow rfl hrev (by rwa [decoderAt_held (by omega)]), runDec_of_fault (by simp)]
        rfl
      · rw [decCharBody_of_invalid rfl hrev, runDec_of_doneErr rfl rfl]
        exact ⟨rfl, rfl, rfl, rfl, rfl⟩

end Simulation

/-- R139 for any interleaving: the decoder's end is the fold of its own words (R59). -/
theorem run_decodeWords {s : State} {es : List HostEvent} {text : List Byte} (hfault : s.dec.fault = .noFault)
    (hes : ∀ e ∈ es, e.resets = false) (hwords : wordsFor .dec es = decodeWords text)
    (hneed : bytesNeeded text ≤ s.params.decOutCap) :
    ∃ t, core.run es.length (s.withEvents es) = .next t ∧ t.host = s.host ∧ EndsWith (decodeText text) t.dec := by
  obtain ⟨t, hrun, -, hdec, hhost, -⟩ := run_events es (s.withEvents es) s.host hes rfl
  refine ⟨t, hrun, hhost, ?_⟩
  rw [hdec, hwords, runDec_decodeWords (show (s.withEvents es).dec.fault = .noFault from hfault)]
  exact runDec_textWords (v := DecodeVars.start) text (by decide) hneed

/-- Settles O34: the decoder ends with DECODE's outcome, which the four clauses name in turn. -/
theorem decoderCommandsComputeDecode : Obligations.DecoderCommandsComputeDecode := by
  intro s es text hfault hes hwords hneed
  obtain ⟨t, hrun, hhost, hend⟩ := run_decodeWords hfault hes hwords hneed
  exact ⟨t, hrun, hhost, fun _ h => by rwa [h] at hend, fun _ h => by rwa [h] at hend, fun _ h => by rwa [h] at hend,
    fun h => by rwa [h] at hend⟩

end Sys2Proof.Proofs
end

section
/-! R139's sequence issued alone: the round trip on the machine (R143), and what padding leaves behind (R141,
R142). -/

namespace Sys2Proof.Proofs

open Sys2Proof Sys2Proof.Machine Sys2Proof.Machine.Laws

/-! ### A unit's commands issued alone -/

theorem unitOfWord_encode (i : Instr) : unitOfWord (encode i) = i.unit :=
  ((decode_unit (encode i)).1 i (decode_encode i)).symm

/-- Commands of one unit, issued alone, are all its words. -/
theorem wordsFor_commands {unit : UnitId} {is : List Instr} (h : ∀ i ∈ is, i.unit = unit) :
    wordsFor unit ((is.map encode).map .command) = is.map encode := by
  rw [wordsFor, List.filterMap_map, List.filterMap_map, ← List.filterMap_eq_map]
  refine List.filterMap_congr fun i hi => ?_
  simp [HostEvent.wordFor, unitOfWord_encode, h i hi]

theorem encodeCommands_unit (b : List Byte) : ∀ i ∈ encodeCommands b, i.unit = .enc := by
  intro i hi
  simp only [encodeCommands, List.mem_cons, List.mem_append, List.mem_map, List.not_mem_nil, or_false] at hi
  obtain rfl | ⟨d, -, rfl⟩ | rfl := hi <;> rfl

theorem decodeCommands_unit (t : List Byte) : ∀ i ∈ decodeCommands t, i.unit = .dec := by
  intro i hi
  simp only [decodeCommands, List.mem_cons, List.mem_append, List.mem_map, List.not_mem_nil, or_false] at hi
  obtain rfl | ⟨c, -, rfl⟩ | rfl := hi <;> rfl

theorem wordsFor_encodeWords (b : List Byte) : wordsFor .enc ((encodeWords b).map .command) = encodeWords b :=
  wordsFor_commands (encodeCommands_unit b)

theorem wordsFor_decodeWords (t : List Byte) : wordsFor .dec ((decodeWords t).map .command) = decodeWords t :=
  wordsFor_commands (decodeCommands_unit t)

theorem wordsFor_dec_encodeWords (b : List Byte) : wordsFor .dec ((encodeWords b).map .command) = [] := by
  rw [← wordsFor_encodeWords, wordsFor_other (by decide)]

theorem resets_of_commands (ws : List Word16) : ∀ e ∈ ws.map HostEvent.command, e.resets = false := by
  simp [HostEvent.resets]

theorem encodeWords_length (b : List Byte) : (encodeWords b).length = b.length + 2 := by
  simp [encodeWords, encodeCommands]

theorem decodeWords_length (t : List Byte) : (decodeWords t).length = t.length + 2 := by
  simp [decodeWords, decodeCommands]

/-! ### The round trip on the machine -/

theorem runEnc_encodeWords_of_fits {p : Params} {u : EncUnit} {b : List Byte} (hfault : u.fault = .noFault)
    (hcap : encodedLength b.length ≤ p.encOutCap) : runEnc p u (encodeWords b) = encDone b :=
  ((runEnc_encodeWords hfault b).resolve_right fun h => absurd hcap (not_le.mpr h.1)).2

theorem decResult_of_endsWith_ok {out : List Byte} {u : DecUnit} (h : EndsWith (.ok out) u) :
    decResult u = .ok out := by
  obtain ⟨hfault, hphase, -, hout⟩ := h
  simp [decResult, hfault, hphase, hout]

/-- Settles O39: the encoder ends with ENCODE's text (R109) and leaves the decoder alone (R20); the decoder ends with
DECODE's outcome on that text (R139), which is the bytes (R143). -/
theorem machineRoundTrip : Obligations.MachineRoundTrip := by
  intro s b hencFault hdecFault hencCap hdecCap
  obtain ⟨m, hencRun, henc, hdec, -, hparams⟩ :=
    run_events _ (s.withEvents ((encodeWords b).map .command)) s.host (resets_of_commands _) rfl
  rw [List.length_map, encodeWords_length] at hencRun
  rw [wordsFor_encodeWords] at henc
  rw [wordsFor_dec_encodeWords] at hdec
  have hdone : m.enc = encDone b := henc.trans (runEnc_encodeWords_of_fits hencFault hencCap)
  have htext : m.enc.out = encodeText b := by rw [hdone]; rfl
  have hneed : bytesNeeded m.enc.out ≤ m.params.decOutCap := by
    rw [htext, hparams, bytesNeeded, bytesNeededFrom_of_ok (decodeText_encodeText b)]
    exact hdecCap
  obtain ⟨t, hdecRun, -, hend⟩ := run_decodeWords (s := m) (by rw [hdec]; exact hdecFault) (resets_of_commands _)
    (wordsFor_decodeWords m.enc.out) hneed
  rw [List.length_map, decodeWords_length] at hdecRun
  rw [htext, decodeText_encodeText] at hend
  exact ⟨m, t, hencRun, by rw [hdone]; rfl, hdecRun, decResult_of_endsWith_ok hend⟩

/-! ### What padding leaves behind -/

/-- The first symbol's bits and two of the second's make the first byte. -/
theorem firstByte_eq (i j : Sextet) :
    (0x0000#16 ||| (i ++ 0#10)).extractLsb' 8 8 ||| (0#6 ++ j.extractLsb' 4 2) = i ++ j.extractLsb' 4 2 := by
  have hfirst : (0x0000#16 ||| (i ++ 0#10)).extractLsb' 8 8 = i ++ 0#2 := by revert i; decide
  rw [hfirst, BitVec.or_append, BitVec.or_zero, BitVec.zero_or]

/-- The bits a padding symbol dropped are ORed into the next symbol's (R142). -/
theorem mergedByte_eq (j k : Sextet) :
    (j.extractLsb' 0 4 ++ 0#12).extractLsb' 8 8 ||| (0#2 ++ k) =
      j.extractLsb' 2 2 ++ (j.extractLsb' 0 2 ||| k.extractLsb' 4 2) ++ k.extractLsb' 0 4 := by
  have hstale : (j.extractLsb' 0 4 ++ 0#12).extractLsb' 8 8 = j.extractLsb' 2 2 ++ j.extractLsb' 0 2 ++ 0#4 := by
    revert j; decide
  have hnew : 0#2 ++ k = 0#2 ++ k.extractLsb' 4 2 ++ k.extractLsb' 0 4 := by revert k; decide
  rw [hstale, hnew, BitVec.or_append, BitVec.or_append, BitVec.or_zero, BitVec.zero_or]

section Padding

variable {p : Params} {u : DecUnit} {acc : Word16} {held : BitVec 4} {out : List Byte}

theorem activeDecoder_inv {cap : Nat} (hheld : held = 0#4 ∨ held = 2#4 ∨ held = 4#4 ∨ held = 6#4)
    (hacc : acc <<< 6 = 0#16) (hout : out.length ≤ cap) : (activeDecoder acc held out).Inv cap :=
  decInv_of_active (u := decInitBody Config.largestParams DecUnit.reset) decInitBody_inv rfl rfl rfl rfl hheld hacc hout

theorem symbol_acc_low (i : Sextet) : (0x0000#16 ||| (i ++ 0#10)) <<< 6 = 0#16 := by revert i; decide

theorem lowBits_acc_low (j : Sextet) : (j.extractLsb' 0 4 ++ 0#12) <<< 6 = 0#16 := by revert j; decide

theorem decChar_firstSymbol (i : Sextet) :
    decCharBody (alpha i) p (activeDecoder 0x0000#16 0#4 []) = activeDecoder (0x0000#16 ||| (i ++ 0#10)) 6#4 [] :=
  decCharBody_of_held_zero rfl (rev_alpha i) rfl (Nat.zero_le _)

/-- The second symbol completes a byte, and its low four bits are held. -/
theorem decChar_secondSymbol (hcap : 1 ≤ p.decOutCap) (i j : Sextet) :
    decCharBody (alpha j) p (activeDecoder (0x0000#16 ||| (i ++ 0#10)) 6#4 []) =
      activeDecoder (j.extractLsb' 0 4 ++ 0#12) 4#4 [i ++ j.extractLsb' 4 2] := by
  have hinv := activeDecoder_inv (out := []) (.inr (.inr (.inr rfl))) (symbol_acc_low i) (Nat.zero_le p.decOutCap)
  rw [decCharBody_of_held_six hinv rfl (rev_alpha j) rfl hcap]
  simp only [activeDecoder, firstByte_eq, List.nil_append]

/-- A padding symbol takes two held bits away and leaves the accumulator as it is (R135). -/
theorem decChar_padding (hlo : 2 ≤ held.toNat) (hhi : held.toNat < 10) :
    decCharBody 0x3D#8 p (activeDecoder acc held out) = activeDecoder acc (BitVec.ofNat 4 (held.toNat - 2)) out :=
  decCharBody_of_pad rfl rev_padByte hlo hhi

/-- A symbol after that padding completes a second byte, into which the dropped bits are ORed (R142). -/
theorem decChar_symbolAfterPadding (j k : Sextet) (hroom : out.length < p.decOutCap) :
    decCharBody (alpha k) p (activeDecoder (j.extractLsb' 0 4 ++ 0#12) 2#4 out) =
      activeDecoder 0x0000#16 0#4
        (out ++ [j.extractLsb' 2 2 ++ (j.extractLsb' 0 2 ||| k.extractLsb' 4 2) ++ k.extractLsb' 0 4]) := by
  have hinv := activeDecoder_inv (.inr (.inl rfl)) (lowBits_acc_low j) hroom.le
  rw [decCharBody_of_held_two hinv rfl (rev_alpha k) rfl hroom, ← mergedByte_eq]
  rfl

theorem runDec_two_symbols_padding (hfault : u.fault = .noFault) (hcap : 1 ≤ p.decOutCap) (i j : Sextet)
    (t : List Byte) :
    runDec p u (decodeWords (alpha i :: alpha j :: 0x3D#8 :: t)) =
      runDec p (activeDecoder (j.extractLsb' 0 4 ++ 0#12) 2#4 [i ++ j.extractLsb' 4 2]) (textWords t) := by
  rw [runDec_decodeWords hfault, runDec_textWords_cons rfl, decChar_firstSymbol, runDec_textWords_cons rfl,
    decChar_secondSymbol hcap, runDec_textWords_cons rfl, decChar_padding (by decide) (by decide)]
  rfl

/-- DEC_FINAL with no bit held accepts the text, whatever the accumulator holds (R141). -/
theorem decFinal_of_none_held : decFinalBody p (activeDecoder acc 0#4 out) =
    { activeDecoder acc 0#4 out with phase := .doneOk } := by
  rw [decFinalBody_of_active rfl]
  exact if_neg (not_not.mpr rfl)

theorem runDec_symbol_after_padding (hfault : u.fault = .noFault) (hcap : 2 ≤ p.decOutCap) (i j k : Sextet) :
    runDec p u (decodeWords [alpha i, alpha j, 0x3D#8, alpha k]) =
      { activeDecoder 0x0000#16 0#4 [i ++ j.extractLsb' 4 2,
          j.extractLsb' 2 2 ++ (j.extractLsb' 0 2 ||| k.extractLsb' 4 2) ++ k.extractLsb' 0 4]
        with phase := .doneOk } := by
  rw [runDec_two_symbols_padding hfault (by omega), runDec_textWords_cons rfl, decChar_symbolAfterPadding j k (by exact hcap),
    runDec_textWords_nil rfl, decFinal_of_none_held]
  rfl

theorem runDec_trailing_padding (hfault : u.fault = .noFault) (hcap : 1 ≤ p.decOutCap) (i j : Sextet) :
    runDec p u (decodeWords [alpha i, alpha j, 0x3D#8, 0x3D#8]) =
      { activeDecoder (j.extractLsb' 0 4 ++ 0#12) 0#4 [i ++ j.extractLsb' 4 2] with phase := .doneOk } := by
  rw [runDec_two_symbols_padding hfault hcap, runDec_textWords_cons rfl, decChar_padding (by decide) (by decide),
    runDec_textWords_nil rfl]
  exact decFinal_of_none_held

end Padding

/-- R139's sequence issued alone, with the decoder's whole end. -/
theorem run_decodeWords_alone (s : State) (text : List Byte) :
    ∃ t, core.run (text.length + 2) (s.withEvents ((decodeWords text).map .command)) = .next t
      ∧ t.dec = runDec s.params s.dec (decodeWords text) := by
  obtain ⟨t, hrun, -, hdec⟩ := run_words s (decodeWords text)
  rw [decodeWords_length] at hrun
  rw [wordsFor_decodeWords] at hdec
  exact ⟨t, hrun, hdec⟩

/-- Settles O37: the padding symbol keeps the accumulator, so that the bits it drops are there for the next symbol's
OR and, at the end of the text, are left over unchecked. -/
theorem staleBitsMergeIntoLaterOutput : Obligations.StaleBitsMergeIntoLaterOutput := by
  intro s i j k hfault hcap
  constructor
  · obtain ⟨t, hrun, hdec⟩ := run_decodeWords_alone s [alpha i, alpha j, 0x3D#8, alpha k]
    rw [runDec_symbol_after_padding hfault hcap] at hdec
    exact ⟨t, hrun, by rw [hdec], by rw [hdec]; rfl⟩
  · obtain ⟨t, hrun, hdec⟩ := run_decodeWords_alone s [alpha i, alpha j, 0x3D#8, 0x3D#8]
    rw [runDec_trailing_padding hfault (by omega)] at hdec
    exact ⟨t, hrun, by rw [hdec], by rw [hdec]; rfl, by rw [hdec]; rfl⟩

end Sys2Proof.Proofs
end

section
/-! Faults and architected errors: the conditions under which a word raises each one (R200, R204), the order of the
checks (R206), and what then stands against further words (R201, R205, R209). -/

namespace Sys2Proof.Proofs

open Sys2Proof Sys2Proof.Machine Sys2Proof.Machine.Laws

/-! ### Words that change nothing -/

/-- A word that leaves both units as they are. -/
def Ignored (s : State) (w : Word16) : Prop :=
  wordEnc w s.params s.enc = s.enc ∧ wordDec w s.params s.dec = s.dec

theorem step_ignored {s : State} {w : Word16} (h : Ignored s w) (rest : List HostEvent) :
    step { s with host := .command w :: rest } = .next { s with host := rest } := by
  obtain ⟨henc, hdec⟩ := h
  rw [step_command, henc, hdec]

theorem run_ignored {s : State} {ws : List Word16} (h : ∀ w ∈ ws, Ignored s w) :
    core.run ws.length (s.withEvents (ws.map .command)) = .next s := by
  induction ws with
  | nil => rfl
  | cons w ws ih =>
    obtain ⟨hw, hws⟩ := List.forall_mem_cons.mp h
    have hstep : step (s.withEvents ((w :: ws).map .command)) = .next (s.withEvents (ws.map .command)) :=
      step_ignored hw _
    rw [List.length_cons, run_next hstep, ih hws]

/-- A faulted unit ignores its word (R205), and the other unit has no part in it (R20). -/
theorem ignored_of_faulted {s : State} {w : Word16}
    (h : (unitOfWord w = .enc ∧ s.enc.fault ≠ .noFault) ∨ (unitOfWord w = .dec ∧ s.dec.fault ≠ .noFault)) :
    Ignored s w := by
  obtain ⟨hunit, hfault⟩ | ⟨hunit, hfault⟩ := h
  · exact ⟨wordEnc_of_fault hfault, wordDec_of_enc hunit _ _⟩
  · exact ⟨wordEnc_of_dec hunit _ _, wordDec_of_fault hfault⟩

/-- The units after a word's step. -/
theorem step_command_units {s t : State} {w : Word16} {rest : List HostEvent}
    (hs : step { s with host := .command w :: rest } = .next t) :
    t.enc = wordEnc w s.params s.enc ∧ t.dec = wordDec w s.params s.dec := by
  rw [step_command] at hs
  cases hs
  exact ⟨rfl, rfl⟩

/-! ### The encoder's faults -/

section EncoderFaults

variable {w : Word16} {p : Params} {u u' : EncUnit} {f : EncFault} {d : Byte}

/-- ENC_BYTE or ENC_FINAL: the commands a phase can refuse. -/
def IsEncInput (w : Word16) : Prop := (∃ d, decode w = .command (.encByte d)) ∨ decode w = .command .encFinal

/-- R204's table for the encoder. -/
def EncFaultCondition (w : Word16) (p : Params) (u : EncUnit) : EncFault → Prop
  | .noFault => False
  | .illegalCommand => ∃ why, decode w = .illegal .enc why
  | .sequenceError => IsEncInput w ∧ (u.phase = .idle ∨ u.phase = .done)
  | .outputOverflow => u.phase = .active ∧
      (((∃ d, decode w = .command (.encByte d)) ∧ u.out.length + (u.pend.toNat + 8) / 6 > p.encOutCap)
        ∨ (decode w = .command .encFinal
          ∧ u.out.length + (if u.pend.toNat > 0 then 1 else 0) + (3 - u.mod3.toNat) % 3 > p.encOutCap))

/-- What a word can do to an unfaulted encoder, as far as faults are concerned. -/
inductive EncEffect (w : Word16) (p : Params) (u : EncUnit) : EncUnit → Prop
  | raised {f : EncFault} (h : EncFaultCondition w p u f) : EncEffect w p u (u.raise f)
  | served {u' : EncUnit} (h : u'.fault = .noFault) : EncEffect w p u u'

theorem encPhase_ne_active_iff {ph : EncPhase} : ph ≠ .active ↔ ph = .idle ∨ ph = .done := by
  cases ph <;> decide

theorem out_length_add_tail_length (u : EncUnit) :
    u.out.length + u.tail.length =
      u.out.length + (if u.pend.toNat > 0 then 1 else 0) + (3 - u.mod3.toNat) % 3 := by
  rw [EncUnit.tail, List.length_append, List.length_replicate, padCount, apply_ite List.length, Nat.add_assoc]
  rfl

theorem wordEnc_of_not_active (hw : IsEncInput w) (hfault : u.fault = .noFault) (hphase : u.phase ≠ .active) :
    wordEnc w p u = u.raise .sequenceError := by
  obtain ⟨d, hw⟩ | hw := hw <;> obtain rfl := decode_eq_command_iff.mp hw
  · rw [wordEnc_encByte hfault, encByteBody_of_not_active d hphase]
  · rw [wordEnc_encFinal hfault, encFinalBody_of_not_active hphase]

theorem wordEnc_of_faultCondition (h : EncFaultCondition w p u f) (hfault : u.fault = .noFault) :
    wordEnc w p u = u.raise f := by
  cases f with
  | noFault => exact h.elim
  | illegalCommand =>
    obtain ⟨why, hw⟩ := h
    exact wordEnc_of_illegal hw p hfault
  | sequenceError =>
    obtain ⟨hw, hphase⟩ := h
    exact wordEnc_of_not_active hw hfault (encPhase_ne_active_iff.mpr hphase)
  | outputOverflow =>
    obtain ⟨hact, ⟨⟨d, hw⟩, hfull⟩ | ⟨hw, hfull⟩⟩ := h <;> obtain rfl := decode_eq_command_iff.mp hw
    · rw [wordEnc_encByte hfault, encByteBody_of_overflow d hact hfull]
    · rw [wordEnc_encFinal hfault, encFinalBody_of_overflow hact (by rwa [out_length_add_tail_length])]

theorem encByteBody_effect (hw : decode w = .command (.encByte d)) (hfault : u.fault = .noFault) :
    EncEffect w p u (encByteBody d p u) := by
  by_cases hact : u.phase = .active
  · by_cases hfull : p.encOutCap < u.out.length + symbolsCompleted u.pend
    · rw [encByteBody_of_overflow d hact hfull]
      exact .raised ⟨hact, .inl ⟨⟨d, hw⟩, hfull⟩⟩
    · obtain ⟨-, -, hkept⟩ := extract_frame (u.accept d)
      rw [encByteBody_of_fits d hact (not_lt.mp hfull)]
      exact .served (hkept.trans hfault)
  · rw [encByteBody_of_not_active d hact]
    exact .raised ⟨.inl ⟨d, hw⟩, encPhase_ne_active_iff.mp hact⟩

theorem encFinalBody_effect (hw : decode w = .command .encFinal) (hfault : u.fault = .noFault) :
    EncEffect w p u (encFinalBody p u) := by
  by_cases hact : u.phase = .active
  · by_cases hfull : p.encOutCap < u.out.length + u.tail.length
    · rw [encFinalBody_of_overflow hact hfull]
      exact .raised ⟨hact, .inr ⟨hw, by rwa [out_length_add_tail_length] at hfull⟩⟩
    · rw [encFinalBody_of_fits hfault hact (not_lt.mp hfull)]
      exact .served rfl
  · rw [encFinalBody_of_not_active hact]
    exact .raised ⟨.inr hw, encPhase_ne_active_iff.mp hact⟩

theorem wordEnc_effect (w : Word16) (p : Params) (hfault : u.fault = .noFault) :
    EncEffect w p u (wordEnc w p u) := by
  rw [wordEnc, if_pos hfault]
  split
  · next why hw => exact .raised ⟨why, hw⟩
  · exact .served hfault
  · next d hw => exact encByteBody_effect hw hfault
  · next hw => exact encFinalBody_effect hw hfault
  · exact .served hfault

/-- A fault stands only where R204 has a condition for it. -/
theorem EncEffect.faultCondition (h : EncEffect w p u u') (hne : u'.fault ≠ .noFault) :
    EncFaultCondition w p u u'.fault := by
  cases h with
  | raised h => exact h
  | served h => exact absurd h hne

theorem wordEnc_fault_iff (hfault : u.fault = .noFault) (hf : f ≠ .noFault) :
    (wordEnc w p u).fault = f ↔ EncFaultCondition w p u f := by
  constructor
  · rintro rfl
    exact (wordEnc_effect w p hfault).faultCondition hf
  · intro h
    rw [wordEnc_of_faultCondition h hfault, EncUnit.raise_fault]

/-- Only a word for the encoder changes its fault field. -/
theorem unitOfWord_of_wordEnc_fault (h : (wordEnc w p u).fault ≠ u.fault) : unitOfWord w = .enc := by
  cases hunit : unitOfWord w with
  | enc => rfl
  | dec => exact absurd (by rw [wordEnc_of_dec hunit]) h

/-- The whole step of a command that raises a fault in the encoder: nothing but the fault field changes (R205). -/
theorem step_of_encFaultCondition {s : State} (h : EncFaultCondition w s.params s.enc f)
    (hfault : s.enc.fault = .noFault) (rest : List HostEvent) :
    step { s with host := .command w :: rest } = .next { s with enc := s.enc.raise f, host := rest } := by
  have hraise := wordEnc_of_faultCondition h hfault
  have hunit : unitOfWord w = .enc := unitOfWord_of_wordEnc_fault (p := s.params) (u := s.enc) <| by
    rw [hraise, EncUnit.raise_fault, hfault]
    rintro rfl
    exact h
  rw [step_command_of_enc hunit, hraise]

/-- ENC_BYTE and ENC_FINAL in ACTIVE can raise one fault only (R206). -/
theorem EncFaultCondition.eq_outputOverflow (h : EncFaultCondition w p u f) (hw : IsEncInput w)
    (hact : u.phase = .active) : f = .outputOverflow := by
  cases f with
  | noFault => exact h.elim
  | illegalCommand =>
    obtain ⟨why, hill⟩ := h
    simp [IsEncInput, hill] at hw
  | sequenceError =>
    obtain ⟨-, hphase⟩ := h
    exact absurd hact (encPhase_ne_active_iff.mpr hphase)
  | outputOverflow => rfl

theorem wordEnc_fault_of_active (hw : IsEncInput w) (hfault : u.fault = .noFault) (hact : u.phase = .active) :
    (wordEnc w p u).fault = .noFault ∨ (wordEnc w p u).fault = .outputOverflow :=
  or_iff_not_imp_left.mpr fun hne => ((wordEnc_effect w p hfault).faultCondition hne).eq_outputOverflow hw hact

end EncoderFaults

/-! ### The decoder's faults and errors -/

section DecoderFaults

variable {w : Word16} {p : Params} {u u' : DecUnit} {f : DecFault} {e : DecErr} {c info : Byte} {v : Sextet}

/-- DEC_CHAR or DEC_FINAL: the commands a phase can refuse or ignore. -/
def IsDecInput (w : Word16) : Prop := (∃ c, decode w = .command (.decChar c)) ∨ decode w = .command .decFinal

/-- R204's table for the decoder; the overflow is R137's test, for outputs of any length. -/
def DecFaultCondition (w : Word16) (p : Params) (u : DecUnit) : DecFault → Prop
  | .noFault => False
  | .illegalCommand => ∃ why, decode w = .illegal .dec why
  | .sequenceError => IsDecInput w ∧ (u.phase = .idle ∨ u.phase = .doneOk)
  | .outputOverflow => u.phase = .active ∧
      ∃ c v, decode w = .command (.decChar c) ∧ rev c = .idx v ∧ p.decOutCap < u.out.length + bytesCompleted u.held
  | .padUnderflow => u.phase = .active ∧ ∃ c, decode w = .command (.decChar c) ∧ rev c = .pad ∧ u.held.toNat < 2

/-- R200's table, each error with its payload. -/
def DecErrorCondition (w : Word16) (u : DecUnit) : DecErr → Byte → Prop
  | .noError, _ => False
  | .invalidSymbol, info => u.phase = .active ∧ decode w = .command (.decChar info) ∧ rev info = .invalid
  | .invalidPadding, info =>
    u.phase = .active ∧ decode w = .command .decFinal ∧ u.held ≠ 0#4 ∧ info = u.held.setWidth 8

/-- What a word can do to an unfaulted decoder, as far as faults and errors are concerned. -/
inductive DecEffect (w : Word16) (p : Params) (u : DecUnit) : DecUnit → Prop
  | raised {f : DecFault} (h : DecFaultCondition w p u f) : DecEffect w p u (u.raise f)
  | failed {e : DecErr} {info : Byte} (h : DecErrorCondition w u e info) : DecEffect w p u (u.fail e info)
  | started : DecEffect w p u (decInitBody p u)
  | served {u' : DecUnit} (herr : u'.err = u.err) (hfault : u'.fault = .noFault) : DecEffect w p u u'

theorem wordDec_of_decChar (hw : decode w = .command (.decChar c)) (hfault : u.fault = .noFault) :
    wordDec w p u = decCharBody c p u := by
  obtain rfl := decode_eq_command_iff.mp hw
  exact wordDec_decChar hfault c

theorem wordDec_of_decFinal (hw : decode w = .command .decFinal) (hfault : u.fault = .noFault) :
    wordDec w p u = decFinalBody p u := by
  obtain rfl := decode_eq_command_iff.mp hw
  exact wordDec_decFinal hfault

theorem wordDec_of_doneErr (hw : IsDecInput w) (hfault : u.fault = .noFault) (hphase : u.phase = .doneErr) :
    wordDec w p u = u := by
  obtain ⟨c, hw⟩ | hw := hw
  · rw [wordDec_of_decChar hw hfault, decCharBody_of_doneErr c hphase]
  · rw [wordDec_of_decFinal hw hfault, decFinalBody_of_doneErr hphase]

theorem unitOfWord_of_isDecInput (hw : IsDecInput w) : unitOfWord w = .dec := by
  obtain ⟨c, hw⟩ | hw := hw <;> exact ((decode_unit w).1 _ hw).symm

/-- An error stands against all input (R201). -/
theorem ignored_of_doneErr {s : State} (hw : IsDecInput w) (hfault : s.dec.fault = .noFault)
    (hphase : s.dec.phase = .doneErr) : Ignored s w :=
  ⟨wordEnc_of_dec (unitOfWord_of_isDecInput hw) _ _, wordDec_of_doneErr hw hfault hphase⟩

theorem wordDec_of_faultCondition (h : DecFaultCondition w p u f) (hfault : u.fault = .noFault) :
    wordDec w p u = u.raise f := by
  cases f with
  | noFault => exact h.elim
  | illegalCommand =>
    obtain ⟨why, hw⟩ := h
    exact wordDec_of_illegal hw p hfault
  | sequenceError =>
    obtain ⟨⟨c, hw⟩ | hw, hphase⟩ := h
    · rw [wordDec_of_decChar hw hfault, decCharBody_of_not_started c hphase]
    · rw [wordDec_of_decFinal hw hfault, decFinalBody_of_not_started hphase]
  | outputOverflow =>
    obtain ⟨hact, c, v, hw, hrev, hfull⟩ := h
    rw [wordDec_of_decChar hw hfault, decCharBody_of_overflow hact hrev hfull]
  | padUnderflow =>
    obtain ⟨hact, c, hw, hrev, hheld⟩ := h
    rw [wordDec_of_decChar hw hfault, decCharBody_of_pad_underflow hact hrev hheld]

theorem wordDec_of_errorCondition (h : DecErrorCondition w u e info) (hfault : u.fault = .noFault) :
    wordDec w p u = u.fail e info := by
  cases e with
  | noError => exact h.elim
  | invalidSymbol =>
    obtain ⟨hact, hw, hrev⟩ := h
    rw [wordDec_of_decChar hw hfault, decCharBody_of_invalid hact hrev]
  | invalidPadding =>
    obtain ⟨hact, hw, hheld, rfl⟩ := h
    rw [wordDec_of_decFinal hw hfault, decFinalBody_of_active hact, if_pos hheld]

/-- A padding byte underflows or records nothing (R206), at every count. -/
theorem decCharBody_pad_cases (p : Params) (hact : u.phase = .active) (hrev : rev c = .pad) :
    (u.held.toNat < 2 ∧ decCharBody c p u = u.raise .padUnderflow)
    ∨ ((decCharBody c p u).err = u.err ∧ (decCharBody c p u).fault = u.fault) := by
  by_cases hheld : u.held.toNat < 2
  · exact .inl ⟨hheld, decCharBody_of_pad_underflow hact hrev hheld⟩
  · have hbody : decCharBody c p u = DecUnit.recon { u with held := u.held - 2#4 } := by
      simp only [decCharBody_of_active c hact, decCharActive, hrev, DecUnit.padStep, if_neg hheld]
    obtain ⟨-, herr, -, hkept⟩ := recon_frame { u with held := u.held - 2#4 }
    rw [hbody]
    exact .inr ⟨herr, hkept⟩

/-- An alphabet byte overflows or records nothing (R206). -/
theorem decCharBody_idx_cases (p : Params) (hact : u.phase = .active) (hrev : rev c = .idx v) :
    (p.decOutCap < u.out.length + bytesCompleted u.held ∧ decCharBody c p u = u.raise .outputOverflow)
    ∨ ((decCharBody c p u).err = u.err ∧ (decCharBody c p u).fault = u.fault) := by
  by_cases hfull : p.decOutCap < u.out.length + bytesCompleted u.held
  · exact .inl ⟨hfull, decCharBody_of_overflow hact hrev hfull⟩
  · obtain ⟨-, herr, -, hkept⟩ := recon_frame (u.insert v)
    rw [decCharBody_of_fits hact hrev (not_lt.mp hfull)]
    exact .inr ⟨herr, hkept⟩

theorem decCharBody_effect (hw : decode w = .command (.decChar c)) (hfault : u.fault = .noFault) :
    DecEffect w p u (decCharBody c p u) := by
  cases hphase : u.phase with
  | idle =>
    rw [decCharBody_of_not_started c (.inl hphase)]
    exact .raised ⟨.inl ⟨c, hw⟩, .inl hphase⟩
  | doneOk =>
    rw [decCharBody_of_not_started c (.inr hphase)]
    exact .raised ⟨.inl ⟨c, hw⟩, .inr hphase⟩
  | doneErr =>
    rw [decCharBody_of_doneErr c hphase]
    exact .served rfl hfault
  | active =>
    cases hrev : rev c with
    | invalid =>
      rw [decCharBody_of_invalid hphase hrev]
      exact .failed ⟨hphase, hw, hrev⟩
    | pad =>
      obtain ⟨hheld, hbody⟩ | ⟨herr, hkept⟩ := decCharBody_pad_cases p hphase hrev
      · rw [hbody]
        exact .raised ⟨hphase, c, hw, hrev, hheld⟩
      · exact .served herr (hkept.trans hfault)
    | idx v =>
      obtain ⟨hfull, hbody⟩ | ⟨herr, hkept⟩ := decCharBody_idx_cases p hphase hrev
      · rw [hbody]
        exact .raised ⟨hphase, c, v, hw, hrev, hfull⟩
      · exact .served herr (hkept.trans hfault)

theorem decFinalBody_effect (hw : decode w = .command .decFinal) (hfault : u.fault = .noFault) :
    DecEffect w p u (decFinalBody p u) := by
  cases hphase : u.phase with
  | idle =>
    rw [decFinalBody_of_not_started (.inl hphase)]
    exact .raised ⟨.inr hw, .inl hphase⟩
  | doneOk =>
    rw [decFinalBody_of_not_started (.inr hphase)]
    exact .raised ⟨.inr hw, .inr hphase⟩
  | doneErr =>
    rw [decFinalBody_of_doneErr hphase]
    exact .served rfl hfault
  | active =>
    rw [decFinalBody_of_active hphase]
    split
    · next hheld => exact .failed ⟨hphase, hw, hheld, rfl⟩
    · exact .served rfl hfault

theorem wordDec_effect (w : Word16) (p : Params) (hfault : u.fault = .noFault) :
    DecEffect w p u (wordDec w p u) := by
  rw [wordDec, if_pos hfault]
  split
  · next why hw => exact .raised ⟨why, hw⟩
  · exact .started
  · next c hw => exact decCharBody_effect hw hfault
  · next hw => exact decFinalBody_effect hw hfault
  · exact .served rfl hfault

/-- A fault stands only where R204 has a condition for it. -/
theorem DecEffect.faultCondition (h : DecEffect w p u u') (hfault : u.fault = .noFault)
    (hne : u'.fault ≠ .noFault) : DecFaultCondition w p u u'.fault := by
  cases h with
  | raised h => exact h
  | failed | started => exact absurd hfault hne
  | served _ hkept => exact absurd hkept hne

theorem wordDec_fault_iff (hfault : u.fault = .noFault) (hf : f ≠ .noFault) :
    (wordDec w p u).fault = f ↔ DecFaultCondition w p u f := by
  constructor
  · rintro rfl
    exact (wordDec_effect w p hfault).faultCondition hfault hf
  · intro h
    rw [wordDec_of_faultCondition h hfault, DecUnit.raise_fault]

/-- A decoder that had no error records one only where R200 has a condition for it. -/
theorem DecEffect.errorCondition (h : DecEffect w p u u') (hnone : u.err = .noError) (hne : u'.err ≠ .noError) :
    DecErrorCondition w u u'.err u'.info := by
  cases h with
  | raised => exact absurd hnone hne
  | failed h => exact h
  | started => exact absurd rfl hne
  | served herr _ => exact absurd (herr.trans hnone) hne

theorem wordDec_err_iff (hfault : u.fault = .noFault) (hnone : u.err = .noError) (he : e ≠ .noError) :
    (wordDec w p u).err = e ↔ ∃ info, DecErrorCondition w u e info := by
  constructor
  · rintro rfl
    exact ⟨_, (wordDec_effect w p hfault).errorCondition hnone he⟩
  · rintro ⟨info, h⟩
    rw [wordDec_of_errorCondition h hfault, DecUnit.fail_err]

/-- Only a word for the decoder changes its fault field. -/
theorem unitOfWord_of_wordDec_fault (h : (wordDec w p u).fault ≠ u.fault) : unitOfWord w = .dec := by
  cases hunit : unitOfWord w with
  | dec => rfl
  | enc => exact absurd (by rw [wordDec_of_enc hunit]) h

/-- The whole step of a command that raises a fault in the decoder: nothing but the fault field changes (R205). -/
theorem step_of_decFaultCondition {s : State} (h : DecFaultCondition w s.params s.dec f)
    (hfault : s.dec.fault = .noFault) (rest : List HostEvent) :
    step { s with host := .command w :: rest } = .next { s with dec := s.dec.raise f, host := rest } := by
  have hraise := wordDec_of_faultCondition h hfault
  have hunit : unitOfWord w = .dec := unitOfWord_of_wordDec_fault (p := s.params) (u := s.dec) <| by
    rw [hraise, DecUnit.raise_fault, hfault]
    rintro rfl
    exact h
  rw [step_command_of_dec hunit, hraise]

/-- R204's overflow test where the output is within the capacity (R34). -/
theorem decOutput_full_iff (hlen : u.out.length ≤ p.decOutCap) :
    p.decOutCap < u.out.length + bytesCompleted u.held ↔ u.held.toNat + 6 ≥ 8 ∧ u.out.length = p.decOutCap := by
  unfold bytesCompleted
  split <;> omega

theorem outputOverflow_condition_iff (hlen : u.out.length ≤ p.decOutCap) :
    DecFaultCondition w p u .outputOverflow ↔ u.phase = .active ∧
      ∃ c v, decode w = .command (.decChar c) ∧ rev c = .idx v ∧ u.held.toNat + 6 ≥ 8
        ∧ u.out.length = p.decOutCap := by
  simp only [DecFaultCondition, decOutput_full_iff hlen]

/-- DEC_CHAR's outcome in ACTIVE by the class of its byte (R206). -/
theorem decCharBody_outcomes (p : Params) (c : Byte) (hfault : u.fault = .noFault) (hact : u.phase = .active) :
    (rev c = .invalid → (decCharBody c p u).fault = .noFault ∧ (decCharBody c p u).err = .invalidSymbol
      ∧ (decCharBody c p u).info = c)
    ∧ (rev c = .pad → (decCharBody c p u).err = u.err
      ∧ ((decCharBody c p u).fault = .noFault ∨ (decCharBody c p u).fault = .padUnderflow))
    ∧ (∀ v, rev c = .idx v → (decCharBody c p u).err = u.err
      ∧ ((decCharBody c p u).fault = .noFault ∨ (decCharBody c p u).fault = .outputOverflow)) := by
  refine ⟨fun hrev => ?invalid, fun hrev => ?pad, fun v hrev => ?idx⟩
  case invalid =>
    rw [decCharBody_of_invalid hact hrev]
    exact ⟨hfault, rfl, rfl⟩
  case pad =>
    obtain ⟨-, hbody⟩ | ⟨herr, hkept⟩ := decCharBody_pad_cases p hact hrev
    · rw [hbody]; exact ⟨rfl, .inr rfl⟩
    · exact ⟨herr, .inl (hkept.trans hfault)⟩
  case idx =>
    obtain ⟨-, hbody⟩ | ⟨herr, hkept⟩ := decCharBody_idx_cases p hact hrev
    · rw [hbody]; exact ⟨rfl, .inr rfl⟩
    · exact ⟨herr, .inl (hkept.trans hfault)⟩

/-- INVALID_PADDING's payload between two commands (R33, R200). -/
theorem heldPayload_values {cap : Nat} (h : u.Inv cap) (hheld : u.held ≠ 0#4) :
    u.held.setWidth 8 = 2#8 ∨ u.held.setWidth 8 = 4#8 ∨ u.held.setWidth 8 = 6#8 := by
  obtain hh | hh | hh | hh := h.held_cases
  · exact absurd hh hheld
  all_goals simp [hh]

end DecoderFaults

/-! ### The statements on faults and errors -/

/-- Settles O17: each fault's condition is R204's, and R34's bound turns R137's overflow test into the listed one. -/
theorem faultsAreRaisedExactlyAsListed : Obligations.FaultsAreRaisedExactlyAsListed := by
  intro s t w hs
  obtain ⟨henc, hdec⟩ := step_command_units hs
  rw [henc, hdec]
  refine ⟨fun _ hfault => ?_, fun _ hfault => ?_⟩
  · exact ⟨wordEnc_fault_iff hfault (by decide), wordEnc_fault_iff hfault (by decide),
      wordEnc_fault_iff hfault (by decide)⟩
  · exact ⟨wordDec_fault_iff hfault (by decide), wordDec_fault_iff hfault (by decide),
      fun hlen => (wordDec_fault_iff hfault (by decide)).trans (outputOverflow_condition_iff hlen),
      wordDec_fault_iff hfault (by decide)⟩

/-- A command that faults: its unit's fault field is all that differs (R205). -/
theorem step_fault_atomic {s t : State} {w : Word16} (hs : step { s with host := .command w :: s.host } = .next t) :
    (s.enc.fault = .noFault → t.enc.fault ≠ .noFault → t = { s with enc := s.enc.raise t.enc.fault })
    ∧ (s.dec.fault = .noFault → t.dec.fault ≠ .noFault → t = { s with dec := s.dec.raise t.dec.fault }) := by
  obtain ⟨henc, hdec⟩ := step_command_units hs
  refine ⟨fun hfault hne => ?_, fun hfault hne => ?_⟩
  · have hcond := (wordEnc_fault_iff hfault hne).mp (congrArg EncUnit.fault henc.symm)
    exact Host.Outcome.next.inj (hs.symm.trans (step_of_encFaultCondition hcond hfault s.host))
  · have hcond := (wordDec_fault_iff hfault hne).mp (congrArg DecUnit.fault hdec.symm)
    exact Host.Outcome.next.inj (hs.symm.trans (step_of_decFaultCondition hcond hfault s.host))

/-- An event in which reset takes no part keeps a standing fault: a faulted unit ignores a word, and a read
changes no unit (R56, R205). -/
theorem step_keeps_faults {s t : State} {e : HostEvent} (he : e.resets = false)
    (hs : step { s with host := e :: s.host } = .next t) :
    (s.enc.fault ≠ .noFault → t.enc.fault = s.enc.fault) ∧ (s.dec.fault ≠ .noFault → t.dec.fault = s.dec.fault) := by
  cases e with
  | command w =>
    obtain ⟨henc, hdec⟩ := step_command_units hs
    rw [henc, hdec]
    exact ⟨fun hfault => by rw [wordEnc_of_fault hfault], fun hfault => by rw [wordDec_of_fault hfault]⟩
  | read addr =>
    rw [step_read] at hs
    cases hs
    exact ⟨fun _ => rfl, fun _ => rfl⟩
  | reset | commandWithReset => cases he

/-- Settles O18: the condition of the fault raised gives the whole step, and a faulted unit's words are ignored one
by one. -/
theorem faultsAreAtomicAndSticky : Obligations.FaultsAreAtomicAndSticky := by
  refine ⟨fun s t w hs => ?atomic, fun s ws hws => run_ignored fun w hw => ignored_of_faulted (hws w hw),
    fun s t e he hs => step_keeps_faults he hs⟩
  case atomic =>
    obtain ⟨henc, hdec⟩ := step_fault_atomic hs
    exact ⟨fun hfault hne => ⟨_, henc hfault hne⟩, fun hfault hne => ⟨_, hdec hfault hne⟩⟩

/-- Settles O19: each line of R206 is a condition of R204, an ignored word, or DEC_CHAR's outcome by the class of
its byte; a step that raises a fault leaves the error as it was. -/
theorem checksAreMadeInOrder : Obligations.ChecksAreMadeInOrder := by
  intro s t w hs
  obtain ⟨henc, hdec⟩ := step_command_units hs
  have hstep : ∀ {t'}, step { s with host := .command w :: s.host } = .next t' → t = t' := fun h =>
    Host.Outcome.next.inj (hs.symm.trans h)
  refine ⟨fun h => ?faulted, fun why hw hfault => ?illegalEnc, fun why hw hfault => ?illegalDec,
    fun hw hfault hphase => ?doneErr, fun hw hfault hphase => ?sequenceEnc, fun hw hfault hphase => ?sequenceDec,
    fun c hw hfault hact => ?decChar, fun hw hfault hact => ?encActive, fun ⟨hfault, hne, herr⟩ => ?oneReport⟩
  case faulted => exact hstep (step_ignored (ignored_of_faulted h) s.host)
  case illegalEnc => exact hstep (step_illegal_enc hw hfault s.host)
  case illegalDec => exact hstep (step_illegal_dec hw hfault s.host)
  case doneErr => exact hstep (step_ignored (ignored_of_doneErr hw hfault hphase) s.host)
  case sequenceEnc =>
    exact hstep (step_of_encFaultCondition (f := .sequenceError) ⟨hw, encPhase_ne_active_iff.mp hphase⟩ hfault s.host)
  case sequenceDec => exact hstep (step_of_decFaultCondition (f := .sequenceError) ⟨hw, hphase⟩ hfault s.host)
  case decChar =>
    rw [hdec, wordDec_of_decChar hw hfault]
    exact decCharBody_outcomes s.params c hfault hact
  case encActive =>
    rw [henc]
    exact wordEnc_fault_of_active hw hfault hact
  case oneReport =>
    obtain ⟨-, hatomic⟩ := step_fault_atomic hs
    exact herr (congrArg (fun x : State => x.dec.err) (hatomic hfault hne)).symm

/-- Settles O20: an error is recorded exactly on R200's conditions, and a recorded one is `fail`'s whole effect. -/
theorem architectedErrorsAreRaisedAsListed : Obligations.ArchitectedErrorsAreRaisedAsListed := by
  intro s t w hs hfault hnone
  obtain ⟨-, hdec⟩ := step_command_units hs
  rw [hdec]
  have hcond := (wordDec_effect w s.params hfault).errorCondition hnone
  refine ⟨?symbol, ?padding, fun c hw herr => ?symbolPayload, fun herr => ?paddingPayload, fun hne => ?effect⟩
  case symbol =>
    rw [wordDec_err_iff hfault hnone (by decide)]
    exact exists_and_left
  case padding =>
    rw [wordDec_err_iff hfault hnone (by decide)]
    exact ⟨fun ⟨_, hact, hw, hheld, _⟩ => ⟨hact, hw, hheld⟩, fun ⟨hact, hw, hheld⟩ => ⟨_, hact, hw, hheld, rfl⟩⟩
  case symbolPayload =>
    have hsymbol := hcond (by rw [herr]; decide)
    rw [herr] at hsymbol
    obtain ⟨-, hinfo, -⟩ := hsymbol
    simpa using hinfo.symm.trans hw
  case paddingPayload =>
    have hpadding := hcond (by rw [herr]; decide)
    rw [herr] at hpadding
    obtain ⟨-, -, hheld, hinfo⟩ := hpadding
    rw [hinfo]
    exact ⟨rfl, fun hinv => heldPayload_values hinv hheld⟩
  case effect =>
    have hfail := wordDec_of_errorCondition (p := s.params) (hcond hne) hfault
    rw [hfail]
    exact ⟨rfl, rfl, rfl, rfl, hfault⟩

/-- Settles O21: each DEC_CHAR and DEC_FINAL is ignored in DONE_ERR, so a list of them is; DEC_INIT writes every
field but the fault. -/
theorem anErrorStandsUntilInit : Obligations.AnErrorStandsUntilInit := by
  intro s hfault hphase
  refine ⟨fun is his => ?ignored, ?init⟩
  case ignored =>
    have hwords : ∀ w ∈ is.map encode, Ignored s w := List.forall_mem_map.mpr fun i hi => by
      refine ignored_of_doneErr ?_ hfault hphase
      obtain rfl | ⟨c, rfl⟩ := his i hi
      · exact .inr (decode_encode _)
      · exact .inl ⟨c, decode_encode _⟩
    simpa using run_ignored hwords
  case init =>
    rw [exec_decInit hfault, decInitBody, hfault]
    rfl

/-- Settles O9: the host's list is empty, so nothing is served (log entry 1). -/
theorem idleStepKeepsTheState : Obligations.IdleStepKeepsTheState := step_nil

/-! ### Results (R210) -/

theorem encResult_of_fault {u : EncUnit} (h : u.fault ≠ .noFault) : encResult u = .fault u.fault := if_pos h

theorem decResult_of_fault {u : DecUnit} (h : u.fault ≠ .noFault) : decResult u = .fault u.fault := if_pos h

/-- Without a fault the encoder's result is read off the phase. -/
theorem encResult_of_noFault {u : EncUnit} (h : u.fault = .noFault) :
    encResult u = if u.phase = .done then .text u.out else .unfinished := by
  rw [encResult, if_neg (not_not.mpr h)]
  cases u.phase <;> rfl

/-- Without a fault the decoder's result is read off the phase, and in DONE_ERR off the error. -/
theorem decResult_of_noFault {u : DecUnit} (h : u.fault = .noFault) :
    decResult u =
      if u.phase = .doneOk then .ok u.out
      else if u.phase = .doneErr then
        if u.err = .invalidSymbol then .invalidSymbol u.info
        else if u.err = .invalidPadding then .invalidPadding u.info
        else .unfinished
      else .unfinished := by
  rw [decResult, if_neg (not_not.mpr h)]
  cases u.phase with
  | doneErr => cases u.err <;> rfl
  | idle | active | doneOk => rfl

/-- Settles O48: the fault comes first, then the phase, then the error. -/
theorem resultsFollowTheUnitState : Obligations.ResultsFollowTheUnitState := by
  intro e d
  refine ⟨fun hfault hphase => ?text, encResult_of_fault, fun hfault hphase => ?encUnfinished,
    fun hfault hphase => ?ok, fun hfault hphase => ⟨fun herr => ?symbol, fun herr => ?padding⟩, decResult_of_fault,
    fun hfault hok herr => ?decUnfinished⟩
  case text => rw [encResult_of_noFault hfault, if_pos hphase]
  case encUnfinished => rw [encResult_of_noFault hfault, if_neg hphase]
  case ok => rw [decResult_of_noFault hfault, if_pos hphase]
  case symbol => simp [decResult_of_noFault hfault, hphase, herr]
  case padding => simp [decResult_of_noFault hfault, hphase, herr]
  case decUnfinished => rw [decResult_of_noFault hfault, if_neg hok, if_neg herr]

end Sys2Proof.Proofs
end

section
/-! What reset does to both units, alone and with a command (R230, R231, R233), and that every pending event is
served (R236, R238). -/

namespace Sys2Proof.Proofs

open Sys2Proof Sys2Proof.Machine Sys2Proof.Machine.Laws

/-! ### Both units at their reset values -/

theorem windowEntry_nil (i : Nat) : windowEntry [] i = 0#32 := windowEntry_of_none rfl

theorem visibleOut_reset : DecUnit.reset.visibleOut = [] := visibleOut_of_not_doneOk (by decide)

/-- Every register and every window entry of the reset units is 0, so every branch of R55's map answers 0. -/
theorem portRead_of_reset {s : State} (henc : s.enc = EncUnit.reset) (hdec : s.dec = DecUnit.reset) (addr : Word32) :
    portRead s addr = 0#32 := by
  have hencOut : EncUnit.reset.out = [] := rfl
  have hencAcc : EncUnit.reset.acc.setWidth 32 = 0#32 := rfl
  have hdecAcc : DecUnit.reset.acc.setWidth 32 = 0#32 := rfl
  have hinfo : DecUnit.reset.info.setWidth 32 = 0#32 := rfl
  simp only [portRead, henc, hdec, encStatus_reset, decStatus_reset, visibleOut_reset, hencOut, hencAcc, hdecAcc, hinfo,
    windowEntry_nil, List.length_nil, ite_self]

/-- Settles O12: the reset's step writes the two reset units, of which every address reads 0. -/
theorem resetSetsEveryElement : Obligations.ResetSetsEveryElement := by
  refine ⟨fun s => ⟨_, step_reset s s.host, rfl, rfl⟩, fun s t addr hs => ?_, fun s t e he hs => step_keeps_faults he hs⟩
  rw [step_reset] at hs
  cases hs
  exact portRead_of_reset rfl rfl addr

/-- Settles O14: `t` is what the command alone leaves; the reset then overwrites both units. -/
theorem resetArrivingWithACommandWins : Obligations.ResetArrivingWithACommandWins := fun s w =>
  ⟨{ s with enc := wordEnc w s.params s.enc, dec := wordDec w s.params s.dec },
    step_commandWithReset s w s.host, step_command s w s.host, step_reset _ s.host⟩

/-! ### The first word after reset -/

/-- In IDLE DATA and FINAL are out of sequence, so a word that no unit faults on is an INIT word (R231). -/
theorem eq_init_of_faultless_in_idle {w : Word16} {p : Params} {e : EncUnit} {d : DecUnit}
    (hencIdle : e.phase = .idle) (hencFault : e.fault = .noFault) (hdecIdle : d.phase = .idle)
    (hdecFault : d.fault = .noFault) (henc : (wordEnc w p e).fault = .noFault)
    (hdec : (wordDec w p d).fault = .noFault) : w = encode .encInit ∨ w = encode .decInit := by
  have hencNone : ∀ f, f ≠ .noFault → ¬ EncFaultCondition w p e f := fun f hf h =>
    hf (((wordEnc_fault_iff hencFault hf).mpr h).symm.trans henc)
  have hdecNone : ∀ f, f ≠ .noFault → ¬ DecFaultCondition w p d f := fun f hf h =>
    hf (((wordDec_fault_iff hdecFault hf).mpr h).symm.trans hdec)
  have hencInput : ¬ IsEncInput w := fun hw => hencNone .sequenceError (by decide) ⟨hw, .inl hencIdle⟩
  have hdecInput : ¬ IsDecInput w := fun hw => hdecNone .sequenceError (by decide) ⟨hw, .inl hdecIdle⟩
  cases hw : decode w with
  | illegal unit why =>
    cases unit with
    | enc => exact absurd ⟨why, hw⟩ (hencNone .illegalCommand (by decide))
    | dec => exact absurd ⟨why, hw⟩ (hdecNone .illegalCommand (by decide))
  | command i =>
    cases i with
    | encInit => exact .inl (decode_eq_command_iff.mp hw)
    | decInit => exact .inr (decode_eq_command_iff.mp hw)
    | encByte b => exact absurd (.inl ⟨b, hw⟩) hencInput
    | encFinal => exact absurd (.inr hw) hencInput
    | decChar c => exact absurd (.inl ⟨c, hw⟩) hdecInput
    | decFinal => exact absurd (.inr hw) hdecInput

/-- Settles O13: in IDLE only INIT is in sequence, and an INIT word writes neither fault field. -/
theorem afterResetOnlyInitIsFaultless : Obligations.AfterResetOnlyInitIsFaultless := by
  refine fun p w => ⟨rfl, rfl, _, step_command (State.resetWith p) w [], fun ⟨henc, hdec⟩ => ?_, ?_⟩
  · exact eq_init_of_faultless_in_idle rfl rfl rfl rfl henc hdec
  · rintro (rfl | rfl) <;> exact ⟨rfl, rfl⟩

/-! ### Every event is served -/

/-- How many steps serve an event (log entry 9). -/
def stepsFor : HostEvent → Nat
  | .command _ => 1
  | .read _ => 1
  | .reset => 1
  | .commandWithReset _ => 2

/-- An event's steps take it off the host's list and keep the parameters. -/
theorem run_stepsFor {s : State} {e : HostEvent} {rest : List HostEvent} (hhost : s.host = e :: rest) :
    ∃ t, (∀ n, core.run (n + stepsFor e) s = core.run n t) ∧ t.host = rest ∧ t.params = s.params := by
  have hserve := step_cons e rest s hhost
  cases e with
  | command w => exact ⟨_, run_next (hserve.trans (serveCommand_eq w _)), rfl, rfl⟩
  | read addr => exact ⟨_, run_next hserve, rfl, rfl⟩
  | reset => exact ⟨_, run_next hserve, rfl, rfl⟩
  | commandWithReset w =>
    have hcommand := hserve.trans (serveCommand_eq w _)
    exact ⟨_, fun n => (run_next hcommand (n + 1)).trans (run_next (step_reset _ rest) n), rfl, rfl⟩

/-- Any list of pending events is served to its end, by induction on the list. -/
theorem run_pending {s : State} {es : List HostEvent} (hhost : s.host = es) :
    ∃ t, core.run (es.map stepsFor).sum s = .next t ∧ t.host = [] ∧ t.params = s.params := by
  induction es generalizing s with
  | nil => exact ⟨s, rfl, hhost, rfl⟩
  | cons e es ih =>
    obtain ⟨s', hserve, hrest, hparams⟩ := run_stepsFor hhost
    obtain ⟨t, hrun, hdone, hkept⟩ := ih hrest
    refine ⟨t, ?_, hdone, hkept.trans hparams⟩
    rw [List.map_cons, List.sum_cons, Nat.add_comm, hserve, hrun]

/-- Settles O11: the statement's count is `stepsFor`'s. -/
theorem everyPendingEventIsServed : Obligations.EveryPendingEventIsServed := fun _ => run_pending rfl

end Sys2Proof.Proofs
end

section
/-! How much one step adds to the outputs (R236): EXTRACT, ENC_FINAL and RECON only append. -/

namespace Sys2Proof.Proofs

open Sys2Proof Sys2Proof.Machine Sys2Proof.Machine.Laws

/-- An output after a step: emptied, or the output before with at most `n` bytes more. -/
def AppendsAtMost (n : Nat) (before after : List Byte) : Prop :=
  after.length ≤ before.length + n ∧ (after ≠ [] → before <+: after)

theorem AppendsAtMost.refl (n : Nat) (out : List Byte) : AppendsAtMost n out out :=
  ⟨Nat.le_add_right _ _, fun _ => List.prefix_refl out⟩

theorem AppendsAtMost.emptied (n : Nat) (out : List Byte) : AppendsAtMost n out [] :=
  ⟨Nat.zero_le _, fun h => absurd rfl h⟩

theorem AppendsAtMost.append {n : Nat} {more : List Byte} (h : more.length ≤ n) (out : List Byte) :
    AppendsAtMost n out (out ++ more) :=
  ⟨by rw [List.length_append]; omega, fun _ => List.prefix_append out more⟩

/-! ### The encoder -/

section Encoder

variable (p : Params) (u : EncUnit)

/-- A 4-bit count holds two groups at most, so EXTRACT stays within R236's bound. -/
theorem extract_appends : AppendsAtMost 3 u.out u.extract.out := by
  obtain ⟨-, he⟩ | ⟨-, he⟩ | ⟨-, he⟩ := extract_cases u <;> rw [he]
  · exact .refl _ _
  · exact .append (by simp) _
  · rw [EncUnit.emitGroup_out, EncUnit.emitGroup_out, List.append_assoc]
    exact .append (by simp) _

/-- One partial group and at most two padding characters. -/
theorem tail_length_le : u.tail.length ≤ 3 := by
  have hlength := out_length_add_tail_length u
  split at hlength <;> omega

theorem encByteBody_appends (d : Byte) : AppendsAtMost 3 u.out (encByteBody d p u).out := by
  by_cases hact : u.phase = .active
  · by_cases hfull : p.encOutCap < u.out.length + symbolsCompleted u.pend
    · rw [encByteBody_of_overflow d hact hfull]
      exact .refl _ _
    · rw [encByteBody_of_fits d hact (not_lt.mp hfull)]
      exact extract_appends (u.accept d)
  · rw [encByteBody_of_not_active d hact]
    exact .refl _ _

theorem encFinalBody_appends : AppendsAtMost 3 u.out (encFinalBody p u).out := by
  unfold encFinalBody
  split
  · exact .refl _ _
  · split
    · exact .refl _ _
    · exact .append (tail_length_le u) _

theorem wordEnc_appends (w : Word16) : AppendsAtMost 3 u.out (wordEnc w p u).out := by
  by_cases hfault : u.fault = .noFault
  · rw [wordEnc, if_pos hfault]
    split
    · exact .refl _ _
    · exact .emptied _ _
    · exact encByteBody_appends p u _
    · exact encFinalBody_appends p u
    · exact .refl _ _
  · rw [wordEnc_of_fault hfault]
    exact .refl _ _

end Encoder

/-! ### The decoder -/

section Decoder

variable (p : Params) (u : DecUnit)

theorem recon_appends : AppendsAtMost 1 u.out u.recon.out := by
  rw [recon_eq]
  split
  · exact .append le_rfl _
  · exact .refl _ _

theorem padStep_out : u.padStep.out = u.out := by
  obtain ⟨-, he⟩ | ⟨-, he⟩ := padStep_cases u <;> rw [he]
  rfl

theorem decCharActive_appends (c : Byte) : AppendsAtMost 1 u.out (decCharActive c p u).out := by
  unfold decCharActive
  split
  · exact .emptied _ _
  · rw [← padStep_out u]
    split
    · exact .refl _ _
    · exact recon_appends u.padStep
  · split
    · exact .refl _ _
    · exact recon_appends (u.insert _)

theorem decCharBody_appends (c : Byte) : AppendsAtMost 1 u.out (decCharBody c p u).out := by
  unfold decCharBody
  split
  · exact .refl _ _
  · split
    · exact .refl _ _
    · exact decCharActive_appends p u c

theorem decFinalBody_appends : AppendsAtMost 1 u.out (decFinalBody p u).out := by
  unfold decFinalBody
  split
  · exact .refl _ _
  · split
    · exact .refl _ _
    · split
      · exact .emptied _ _
      · exact .refl _ _

theorem wordDec_appends (w : Word16) : AppendsAtMost 1 u.out (wordDec w p u).out := by
  by_cases hfault : u.fault = .noFault
  · rw [wordDec, if_pos hfault]
    split
    · exact .refl _ _
    · exact .emptied _ _
    · exact decCharBody_appends p u _
    · exact decFinalBody_appends p u
    · exact .refl _ _
  · rw [wordDec_of_fault hfault]
    exact .refl _ _

end Decoder

/-! ### A step -/

theorem step_appends {s t : State} (hs : step s = .next t) :
    AppendsAtMost 3 s.enc.out t.enc.out ∧ AppendsAtMost 1 s.dec.out t.dec.out := by
  obtain ⟨-, he⟩ | ⟨w, rest, -, he⟩ | ⟨a, rest, -, he⟩ | ⟨rest, -, he⟩ | ⟨w, rest, -, he⟩ := step_cases s
  all_goals
    rw [he] at hs
    cases hs
  · exact ⟨.refl _ _, .refl _ _⟩
  · exact ⟨wordEnc_appends _ _ w, wordDec_appends _ _ w⟩
  · exact ⟨.refl _ _, .refl _ _⟩
  · exact ⟨.emptied _ _, .emptied _ _⟩
  · exact ⟨wordEnc_appends _ _ w, wordDec_appends _ _ w⟩

/-- Settles O43: whatever is served, each output is kept, emptied, or appended to within its bound. -/
theorem eachStepDoesBoundedWork : Obligations.EachStepDoesBoundedWork := fun _ _ hs => by
  obtain ⟨⟨hencLength, hencPrefix⟩, ⟨hdecLength, hdecPrefix⟩⟩ := step_appends hs
  exact ⟨hencLength, hdecLength, hencPrefix, hdecPrefix⟩

end Sys2Proof.Proofs
end
